-- ==== Sys2Proof/Word.lean ====
section
/-! DEFINITION. The word types of the machine (spec/00_scope.md R6, R7, R8): every value is an unsigned bit
vector, bit 0 the least significant. -/

namespace Sys2Proof

/-- One memory cell, the accumulator, or an instruction byte: 8 bits (`CELL_BITS`, `ACC_BITS`, R6). -/
abbrev Byte := BitVec 8

/-- A nibble: an opcode field, a data field, or a core data address 0 to 15 (`OPCODE_BITS`, `DATA_BITS`, R6; R30). -/
abbrev Nibble := BitVec 4

/-- The program counter's 5-bit register `pc[4:0]` (`PC_RANGE`, R6; R15). -/
abbrev PcWord := BitVec 5

end Sys2Proof
end

