-- ==== Sys2Proof/Syntax.lean ====
section
/-! DEFINITION. The instructions: one constructor per row of spec/opcode_table.json (30_encoding.md R49, R51).
Each carries the data field, bits 3 to 0 of its byte, also where the row ignores it, so that no bit of an encoding
is dropped. DESIGN CHOICE (safe): R49's one illegal case is seven constructors here, one per reserved opcode, each
with the data field (log 11). -/

namespace Sys2Proof

inductive Instr where
  /-- Opcode 0, HLT: the data field is ignored (R67). -/
  | hlt (d : Nibble)
  /-- Opcode 1, LDA: direct load (R68). -/
  | lda (d : Nibble)
  /-- Opcode 2, LDI: indirect load (R69). -/
  | ldi (d : Nibble)
  /-- Opcode 3, STA: direct store (R70). -/
  | sta (d : Nibble)
  /-- Opcode 4, STI: indirect store (R71). -/
  | sti (d : Nibble)
  /-- Opcode 5, ADD (R73). -/
  | add (d : Nibble)
  /-- Opcode 6, SUB (R74). -/
  | sub (d : Nibble)
  /-- Opcode 7, JMP (R78). -/
  | jmp (d : Nibble)
  /-- Opcode 8, JMZ (R79). -/
  | jmz (d : Nibble)
  /-- Opcode 9, reserved and illegal (R55). -/
  | reserved9 (d : Nibble)
  /-- Opcode 10, reserved and illegal (R55). -/
  | reserved10 (d : Nibble)
  /-- Opcode 11, reserved and illegal (R55). -/
  | reserved11 (d : Nibble)
  /-- Opcode 12, reserved and illegal (R55). -/
  | reserved12 (d : Nibble)
  /-- Opcode 13, reserved and illegal (R55). -/
  | reserved13 (d : Nibble)
  /-- Opcode 14, reserved and illegal (R55). -/
  | reserved14 (d : Nibble)
  /-- Opcode 15, reserved and illegal (R55). -/
  | reserved15 (d : Nibble)
  deriving DecidableEq, Repr

end Sys2Proof
end

