-- ==== Sys2Proof/WellFormed.lean ====
section
/-! DEFINITION. Which instructions are legal (30_encoding.md R52, R53): opcodes 0 to 8 with every data value. The
one check is that the opcode is not reserved (R55); a data field cannot be out of range, since it is four bits. -/

namespace Sys2Proof

def Instr.wellFormed : Instr → Bool
  | .hlt _ | .lda _ | .ldi _ | .sta _ | .sti _ | .add _ | .sub _ | .jmp _ | .jmz _ => true
  | .reserved9 _ | .reserved10 _ | .reserved11 _ | .reserved12 _ | .reserved13 _ | .reserved14 _
  | .reserved15 _ => false

end Sys2Proof
end

