-- ==== Sys2Proof/Decode.lean ====
section
/-! DEFINITION. Decoding and encoding (30_encoding.md R48, R49, R51). Decoding is total on bytes: opcodes 9 to 15
decode to the reserved constructor of their own name. -/

namespace Sys2Proof

/-- `b[7:4]`, the opcode field (R7, R48). -/
def opcodeField (b : Byte) : Nibble := b.extractLsb' 4 4

/-- `b[3:0]`, the data field of an instruction byte; also `p & 0xF`, the address in a pointer cell (R7, R48, R50). -/
def dataField (b : Byte) : Nibble := b.extractLsb' 0 4

/-- The instruction a byte encodes: the opcode map of R51, each row with the bits 7 to 4 of its encoding as
spec/opcode_table.json writes them. -/
def decode (b : Byte) : Instr :=
  match b.getLsbD 7, b.getLsbD 6, b.getLsbD 5, b.getLsbD 4 with
  | false, false, false, false => .hlt (dataField b)
  | false, false, false, true => .lda (dataField b)
  | false, false, true, false => .ldi (dataField b)
  | false, false, true, true => .sta (dataField b)
  | false, true, false, false => .sti (dataField b)
  | false, true, false, true => .add (dataField b)
  | false, true, true, false => .sub (dataField b)
  | false, true, true, true => .jmp (dataField b)
  | true, false, false, false => .jmz (dataField b)
  | true, false, false, true => .reserved9 (dataField b)
  | true, false, true, false => .reserved10 (dataField b)
  | true, false, true, true => .reserved11 (dataField b)
  | true, true, false, false => .reserved12 (dataField b)
  | true, true, false, true => .reserved13 (dataField b)
  | true, true, true, false => .reserved14 (dataField b)
  | true, true, true, true => .reserved15 (dataField b)

/-- The opcode of an instruction, as the map of R51 gives it. -/
def Instr.opcode : Instr → Nibble
  | .hlt _ => 0
  | .lda _ => 1
  | .ldi _ => 2
  | .sta _ => 3
  | .sti _ => 4
  | .add _ => 5
  | .sub _ => 6
  | .jmp _ => 7
  | .jmz _ => 8
  | .reserved9 _ => 9
  | .reserved10 _ => 10
  | .reserved11 _ => 11
  | .reserved12 _ => 12
  | .reserved13 _ => 13
  | .reserved14 _ => 14
  | .reserved15 _ => 15

/-- The data field of an instruction. -/
def Instr.data : Instr → Nibble
  | .hlt d | .lda d | .ldi d | .sta d | .sti d | .add d | .sub d | .jmp d | .jmz d => d
  | .reserved9 d | .reserved10 d | .reserved11 d | .reserved12 d | .reserved13 d | .reserved14 d
  | .reserved15 d => d

/-- The byte of an instruction: opcode `k` with data `d` is `16*k + d` (R51). -/
def encode (i : Instr) : Byte := i.opcode ++ i.data

/-- Why a sequence of bytes holds no instruction. -/
inductive DecodeError where
  /-- The sequence is empty: an instruction is one byte (R48, R54). -/
  | noByte
  deriving DecidableEq, Repr

/-- The first instruction of a sequence of bytes, and the bytes after it. Every instruction is one byte and needs no
length logic (R54). -/
def decodeBytes : List Byte → Except DecodeError (Instr × List Byte)
  | [] => .error .noByte
  | b :: rest => .ok (decode b, rest)

/-- The byte that a table word of `nbits` bits stands for: its bits above `nbits` are zero. -/
def tableByte (nbits w : Nat) : Byte := BitVec.ofNat 8 (w % 2 ^ nbits)

/-- The instruction the decoder reads from a table word, whose bit 0 is bit 0 of the instruction byte (R7). A word of
more than 8 bits is no instruction of this machine (R54). -/
def decodeTableWord (nbits w : Nat) : Option Instr :=
  if nbits ≤ 8 then
    match decodeBytes [tableByte nbits w] with
    | .ok (i, _) => some i
    | .error _ => none
  else none

end Sys2Proof
end

