-- ==== Sys2Proof/Machine/Alu.lean ====
section
/-! DEFINITION. The accumulator ALU (42_arithmetic.md R72): PASS, ADD and SUB, 8 bits in and 8 bits out, with no
carry, borrow, overflow or sign output. Its zero test stands in Flags.lean. -/

namespace Sys2Proof.Machine

inductive AluOp where
  | pass
  | add
  | sub
  deriving DecidableEq, Repr

/-- The ALU's output: `m`, `(a + m) mod 256` or `(a - m) mod 256` (R72, R75). -/
def alu : AluOp → Byte → Byte → Byte
  | .pass, _, m => m
  | .add, a, m => a + m
  | .sub, a, m => a - m

end Sys2Proof.Machine
end

