-- ==== Sys2Proof/Config.lean ====
section
/-! DEFINITION. The implementation parameters of spec/00_scope.md R6. "None is left open": there is no free value
and nothing opaque here. The widths are those of the types in Word.lean. -/

namespace Sys2Proof

/-- `MEM_CELLS`: 16 cells, addresses 0 to 15 (R6, R13). -/
abbrev Config.memCells : Nat := 16

/-- The greatest value of a cell, 255 (`CELL_BITS` = 8, R6, R13). -/
abbrev Config.maxCellValue : Nat := 255

/-- What a cell holds at creation, and so what an address that memory does not list reads as: 0x00 (R26, R41). -/
abbrev Config.resetCell : Byte := 0x00#8

end Sys2Proof
end

