-- ==== Sys2Proof/Machine/State.lean ====
section
/-! DEFINITION. The state of the block (10_state.md): memory, program counter, accumulator and run state, with the
halted flag defined from the run state (R19), and the response of the latest transaction, which is the model's own
field (log 1). Plain data throughout. -/

namespace Sys2Proof.Machine

/-- The fault reason `r` of `Faulted(r)` (10_state.md R18, R23). -/
inductive FaultReason where
  /-- A fetched opcode was 9 to 15 (30_encoding.md R55). -/
  | illegalOpcode
  /-- A fetch was tried at `pc` = 16 (60_exceptions.md R86). -/
  | outOfRange
  deriving DecidableEq, Repr

/-- The run state (10_state.md R18). -/
inductive RunState where
  | running
  | halted
  | faulted (r : FaultReason)
  deriving DecidableEq, Repr

/-- The response of a host transaction (60_exceptions.md R81, R82): ok, or one of the five error kinds with what it
records. -/
inductive Response where
  /-- Success with no value. -/
  | ok
  /-- Success of `readMemory`, with the value read. -/
  | okRead (v : Byte)
  /-- An address outside 0 to 15: the host's integer, or 16 for a fetch at `pc` = 16. -/
  | outOfRange (addr : Int)
  /-- A host value outside 0 to 255. -/
  | invalidValue (value : Int)
  /-- A fetched opcode 9 to 15. -/
  | illegalOpcode (op : Nibble)
  /-- `step` while halted. -/
  | alreadyHalted
  /-- `step` while faulted, with the stored reason. -/
  | alreadyFaulted (r : FaultReason)
  deriving DecidableEq, Repr

/-- Memory as (address, byte) pairs: addresses strictly rising, all below 16, and no byte equal to what an unlisted
address reads as (`Memory.wf` in Machine/Memory.lean; log 8). -/
abbrev Memory := List Host.Cell

structure State where
  /-- The 16 cells (10_state.md R13). -/
  mem : Memory
  /-- The program counter, 0 to 16 in 5 bits (10_state.md R15; log 2). -/
  pc : PcWord
  /-- The accumulator, the sole register (10_state.md R17). -/
  acc : Byte
  /-- The run state, which also holds the fault reason and defines the halted flag (10_state.md R18, R19, R23). -/
  run : RunState
  /-- DESIGN CHOICE (safe): the answer of the latest transaction, the block's output. No transaction reads it (log 1). -/
  response : Response
  deriving DecidableEq, Repr

/-- Why the machine stops without a next state. -/
inductive Fault where
  /-- Raised by the step of a Running machine whose `pc` is 17 to 31, values the spec calls unreachable and gives no
  behaviour for (10_state.md R15). DESIGN CHOICE, safe: the model stops (log 2). -/
  | unreachablePc (pc : PcWord)
  deriving DecidableEq, Repr

/-- Why an instruction has no meaning. -/
inductive Refusal where
  /-- Raised by `exec` for an instruction whose meaning is not written. Safe. Every instruction has its meaning, so
  nothing raises it. -/
  | notModelled (mnemonic : String)
  deriving DecidableEq, Repr

/-- The state at creation (10_state.md R26, 70_reset_and_hazards.md R101): all memory zero, pc = 0, accumulator = 0,
Running. DEDUCED (safe): creation is an operation that succeeds and returns nothing, so its response is `ok`
(log 9). -/
def State.reset : State where
  mem := []
  pc := 0
  acc := 0
  run := .running
  response := .ok

end Sys2Proof.Machine
end

