-- ==== Sys2Proof/Machine/Memory.lean ====
section
/-! DEFINITION. Memory as a canonical sparse list: the read of one cell, the write of one cell, and the canonical
form. Every access of this machine is one cell wide (20_memory.md R36, R38). -/

namespace Sys2Proof.Machine

/-- The canonical form: addresses strictly rising, every address a cell of the memory, no entry equal to what an
unlisted address reads as (log 8). -/
abbrev Memory.wf (m : Memory) : Prop :=
  m.Pairwise (fun c e => c.1 < e.1) ∧ ∀ c ∈ m, c.1 < Config.memCells ∧ c.2 ≠ Config.resetCell

/-- The byte at an address; an unlisted address still holds its reset value (10_state.md R26, 20_memory.md R41). -/
def Memory.read : Memory → Nat → Byte
  | [], _ => Config.resetCell
  | (k, v) :: m, a => if k = a then v else Memory.read m a

/-- The memory with no entry at an address. -/
def Memory.erase : Memory → Nat → Memory
  | [], _ => []
  | (k, v) :: m, a => if k = a then Memory.erase m a else (k, v) :: Memory.erase m a

/-- The memory with an entry put before the first greater address. -/
def Memory.insert : Memory → Nat → Byte → Memory
  | [], a, v => [(a, v)]
  | (k, x) :: m, a, v => if a < k then (a, v) :: (k, x) :: m else (k, x) :: Memory.insert m a v

/-- The memory with a byte stored at an address; storing what an unlisted address reads as removes the entry. -/
def Memory.write (m : Memory) (a : Nat) (v : Byte) : Memory :=
  if v = Config.resetCell then m.erase a else (m.erase a).insert a v

end Sys2Proof.Machine
end

