-- ==== Sys2Proof/Machine/PcMux.lean ====
section
/-! DEFINITION. The program counter mux (43_jump.md R77): the three selects and the next value each gives. -/

namespace Sys2Proof.Machine

inductive PcSel where
  /-- `pc + 1`, a 5-bit sum. -/
  | inc
  /-- `zext_5(data)`. -/
  | jump (d : Nibble)
  /-- `pc` unchanged. -/
  | hold
  deriving DecidableEq, Repr

/-- `zext_5`: the jump target, 0 to 15 (00_scope.md R8, 30_encoding.md R50). -/
def zext5 (d : Nibble) : PcWord := d.setWidth 5

/-- The next `pc`. The increment is not masked to 4 bits: 15 + 1 = 16 (30_encoding.md R56). -/
def pcMux : PcSel → PcWord → PcWord
  | .inc, pc => pc + 1
  | .jump d, _ => zext5 d
  | .hold, pc => pc

end Sys2Proof.Machine
end

