-- ==== Sys2Proof/Machine/Ops.lean ====
section
/-! DEFINITION. The named operations over memory and registers (00_scope.md R10), the ways a transaction ends, and
taking a fault. -/

namespace Sys2Proof.Machine

/-- `MemRead(addr, 1)` at a core address, which is always in range (R10, 20_memory.md R40). -/
def memRead (a : Nibble) (s : State) : Byte := s.mem.read a.toNat

/-- `MemWrite(addr, 1, v)` at a core address (R10, 20_memory.md R40). -/
def memWrite (a : Nibble) (v : Byte) (s : State) : State := { s with mem := s.mem.write a.toNat v }

/-- The ALU's output written to the accumulator (42_arithmetic.md R72). -/
def accFromAlu (op : AluOp) (m : Byte) (s : State) : State := { s with acc := alu op s.acc m }

/-- The program counter takes what the mux selects (43_jump.md R77). -/
def selectPc (sel : PcSel) (s : State) : State := { s with pc := pcMux sel s.pc }

/-- The run state is written (10_state.md R22). -/
def setRun (r : RunState) (s : State) : State := { s with run := r }

/-- The transaction is answered (60_exceptions.md R82; log 1). -/
def respond (r : Response) (s : State) : State := { s with response := r }

/-- `return ok`: the end of an executed instruction (30_encoding.md R56). -/
def complete (s : State) : Host.Outcome State Fault Refusal := .next (respond .ok s)

/-- A rejection: the error is reported and no state changes (60_exceptions.md R84; log 5). -/
def reject (e : Response) (s : State) : Host.Outcome State Fault Refusal := .next (respond e s)

/-- Taking a fault: the run state becomes `Faulted(r)` and the error is reported. Nothing is saved, there is no
vector and no handler, and the pc, the accumulator and memory stay as they are (60_exceptions.md R84, R88). There is
no return from a fault: `Faulted(r)` is left only by creating a new processor (R93). DESIGN CHOICE of the spec (its
decisions D4 and D6), unsafe: what a fault leaves in `pc` (log 3, log 4). -/
def raiseFault (r : FaultReason) (e : Response) (s : State) : Host.Outcome State Fault Refusal :=
  .next (respond e (setRun (.faulted r) s))

/-- The illegal-opcode fault of a reserved opcode; the fetch has already advanced the pc (30_encoding.md R55; log 3). -/
def raiseIllegal (op : Nibble) (s : State) : Host.Outcome State Fault Refusal :=
  raiseFault .illegalOpcode (.illegalOpcode op) s

/-- The address a fetch reads, `pc` when it is 0 to 15 (20_memory.md R30). -/
def fetchAddr (s : State) : Nibble := s.pc.setWidth 4

/-- The instruction byte at `pc` (30_encoding.md R56). -/
def fetchByte (s : State) : Byte := memRead (fetchAddr s) s

/-- The increment at fetch time: `pc <- pc + 1` (30_encoding.md R56, 43_jump.md R77). -/
def afterFetch (s : State) : State := selectPc .inc s

end Sys2Proof.Machine
end

