-- ==== Sys2Proof/Machine/Operands.lean ====
section
/-! DEFINITION. The operand forms of 30_encoding.md R50. The jump target is `zext5` of PcMux.lean; HLT and the
reserved opcodes ignore their data field. -/

namespace Sys2Proof.Machine

/-- Direct address: `ea = data`. -/
def directAddr (d : Nibble) : Nibble := d

/-- Indirect address: `ea = MemRead(data, 1) & 0xF`; bits 7 to 4 of the pointer cell are ignored. -/
def indirectAddr (d : Nibble) (s : State) : Nibble := dataField (memRead d s)

/-- The cell a direct form reads. -/
def directOperand (d : Nibble) (s : State) : Byte := memRead (directAddr d) s

/-- The cell an indirect form reads. -/
def indirectOperand (d : Nibble) (s : State) : Byte := memRead (indirectAddr d s) s

end Sys2Proof.Machine
end

