-- ==== Sys2Proof/Machine/Arithmetic.lean ====
section
/-! DEFINITION. ADD and SUB (42_arithmetic.md R73, R74). -/

namespace Sys2Proof.Machine

/-- ADD: `acc <- (acc + MemRead(d, 1)) & 0xFF` (R73). -/
def execAdd (d : Nibble) (s : State) : Host.Outcome State Fault Refusal :=
  complete (accFromAlu .add (directOperand d s) s)

/-- SUB: `acc <- (acc - MemRead(d, 1)) mod 256` (R74). -/
def execSub (d : Nibble) (s : State) : Host.Outcome State Fault Refusal :=
  complete (accFromAlu .sub (directOperand d s) s)

end Sys2Proof.Machine
end

