-- ==== Sys2Proof/Machine/Halt.lean ====
section
/-! DEFINITION. HLT (40_halt.md R67). A meaning runs after the fetch and increment, so `pc` already holds the fetched
address plus one. -/

namespace Sys2Proof.Machine

/-- HLT: `run <- Halted`; the data field is ignored (R67). -/
def execHlt (_d : Nibble) (s : State) : Host.Outcome State Fault Refusal := complete (setRun .halted s)

end Sys2Proof.Machine
end

