-- ==== Sys2Proof/Machine/Flags.lean ====
section
/-! DEFINITION. The flags. There are no status flags and no condition codes (10_state.md R21): an instruction has no
flag to compute. What the spec has is the zero test, computed when JMZ executes and stored nowhere, and the halted
flag, defined from the run state. -/

namespace Sys2Proof.Machine

/-- `ZERO(a) = (a == 0)`, used by JMZ only (42_arithmetic.md R72, 43_jump.md R79). -/
def aluZero (a : Byte) : Bool := a == 0

/-- The halted flag: `halted = (run == Halted)` (10_state.md R19; DEDUCED, safe: the flag has no bit of its own,
log 14). -/
def State.halted (s : State) : Bool := s.run == .halted

end Sys2Proof.Machine
end

