-- ==== Sys2Proof/Machine/Jump.lean ====
section
/-! DEFINITION. JMP and JMZ (43_jump.md R78, R79). -/

namespace Sys2Proof.Machine

/-- JMP: `pc <- zext_5(d)` (R78). -/
def execJmp (d : Nibble) (s : State) : Host.Outcome State Fault Refusal := complete (selectPc (.jump d) s)

/-- JMZ: `if acc == 0 then pc <- zext_5(d)`, else `pc` keeps the incremented value (R79). -/
def execJmz (d : Nibble) (s : State) : Host.Outcome State Fault Refusal :=
  if aluZero s.acc then complete (selectPc (.jump d) s) else complete s

end Sys2Proof.Machine
end

