-- ==== Sys2Proof/Machine/LoadStore.lean ====
section
/-! DEFINITION. LDA, LDI, STA and STI (41_load_store.md R68 to R71). Loads pass through the ALU (30_encoding.md R57). -/

namespace Sys2Proof.Machine

/-- LDA: `acc <- MemRead(d, 1)` (R68). -/
def execLda (d : Nibble) (s : State) : Host.Outcome State Fault Refusal :=
  complete (accFromAlu .pass (directOperand d s) s)

/-- LDI: `acc <- MemRead(MemRead(d, 1) & 0xF, 1)` (R69). -/
def execLdi (d : Nibble) (s : State) : Host.Outcome State Fault Refusal :=
  complete (accFromAlu .pass (indirectOperand d s) s)

/-- STA: `MemWrite(d, 1, acc)` (R70). -/
def execSta (d : Nibble) (s : State) : Host.Outcome State Fault Refusal :=
  complete (memWrite (directAddr d) s.acc s)

/-- STI: the pointer is read, then `MemWrite(MemRead(d, 1) & 0xF, 1, acc)` (R71). -/
def execSti (d : Nibble) (s : State) : Host.Outcome State Fault Refusal :=
  complete (memWrite (indirectAddr d s) s.acc s)

end Sys2Proof.Machine
end

