-- ==== Sys2Proof/Machine/Reserved.lean ====
section
/-! DEFINITION. The reserved opcodes 9 to 15 (30_encoding.md R55): each takes the illegal-opcode fault and ignores its
data field. -/

namespace Sys2Proof.Machine

/-- Opcode 9: `raise IllegalOpcode(9)` (R55). -/
def execReserved9 (_d : Nibble) (s : State) : Host.Outcome State Fault Refusal := raiseIllegal 9 s

/-- Opcode 10: `raise IllegalOpcode(10)` (R55). -/
def execReserved10 (_d : Nibble) (s : State) : Host.Outcome State Fault Refusal := raiseIllegal 10 s

/-- Opcode 11: `raise IllegalOpcode(11)` (R55). -/
def execReserved11 (_d : Nibble) (s : State) : Host.Outcome State Fault Refusal := raiseIllegal 11 s

/-- Opcode 12: `raise IllegalOpcode(12)` (R55). -/
def execReserved12 (_d : Nibble) (s : State) : Host.Outcome State Fault Refusal := raiseIllegal 12 s

/-- Opcode 13: `raise IllegalOpcode(13)` (R55). -/
def execReserved13 (_d : Nibble) (s : State) : Host.Outcome State Fault Refusal := raiseIllegal 13 s

/-- Opcode 14: `raise IllegalOpcode(14)` (R55). -/
def execReserved14 (_d : Nibble) (s : State) : Host.Outcome State Fault Refusal := raiseIllegal 14 s

/-- Opcode 15: `raise IllegalOpcode(15)` (R55). -/
def execReserved15 (_d : Nibble) (s : State) : Host.Outcome State Fault Refusal := raiseIllegal 15 s

end Sys2Proof.Machine
end

