-- ==== Sys2Proof/Machine/Dispatch.lean ====
section
/-! DEFINITION. One arm per instruction (30_encoding.md R56). The state is the one after the fetch and increment. -/

namespace Sys2Proof.Machine

def exec (i : Instr) (s : State) : Host.Outcome State Fault Refusal :=
  match i with
  | .hlt d => Sys2Proof.Machine.execHlt d s
  | .lda d => Sys2Proof.Machine.execLda d s
  | .ldi d => Sys2Proof.Machine.execLdi d s
  | .sta d => Sys2Proof.Machine.execSta d s
  | .sti d => Sys2Proof.Machine.execSti d s
  | .add d => Sys2Proof.Machine.execAdd d s
  | .sub d => Sys2Proof.Machine.execSub d s
  | .jmp d => Sys2Proof.Machine.execJmp d s
  | .jmz d => Sys2Proof.Machine.execJmz d s
  | .reserved9 d => Sys2Proof.Machine.execReserved9 d s
  | .reserved10 d => Sys2Proof.Machine.execReserved10 d s
  | .reserved11 d => Sys2Proof.Machine.execReserved11 d s
  | .reserved12 d => Sys2Proof.Machine.execReserved12 d s
  | .reserved13 d => Sys2Proof.Machine.execReserved13 d s
  | .reserved14 d => Sys2Proof.Machine.execReserved14 d s
  | .reserved15 d => Sys2Proof.Machine.execReserved15 d s

end Sys2Proof.Machine
end

