-- ==== Sys2Proof/Machine/Sequencer.lean ====
section
/-! DEFINITION. The fetch/decode/execute sequencer (30_encoding.md R56), which Step.lean calls. -/

namespace Sys2Proof.Machine

/-- The step of a Running block: the fetch at `pc` = 16 faults before any access (60_exceptions.md R86; log 4); at 0
to 15 the byte is fetched, the pc advances, and the decoded instruction executes. A `pc` of 17 to 31 is unreachable
(10_state.md R15), and the model stops there: DESIGN CHOICE, safe (log 2). -/
def fetchDecodeExecute (s : State) : Host.Outcome State Fault Refusal :=
  if s.pc.toNat < Config.memCells then exec (decode (fetchByte s)) (afterFetch s)
  else if s.pc.toNat = Config.memCells then raiseFault .outOfRange (.outOfRange 16) s
  else .fault (.unreachablePc s.pc)

/-- `step()`: the checks in the order of 60_exceptions.md R92, Halted, Faulted, then the fetch. DESIGN CHOICE of the
spec (its decisions D5 and D7), unsafe: the order and the AlreadyFaulted report (log 5). -/
def fdeStep (s : State) : Host.Outcome State Fault Refusal :=
  match s.run with
  | .halted => reject .alreadyHalted s
  | .faulted r => reject (.alreadyFaulted r) s
  | .running => fetchDecodeExecute s

/-- The state with one byte put where the next step fetches (log 10). -/
def placeFetchByte (b : Byte) (s : State) : State :=
  let pc : PcWord := if s.pc.toNat < Config.memCells then s.pc else 0
  { s with run := .running, pc := pc, mem := s.mem.write pc.toNat b }

end Sys2Proof.Machine
end

