-- ==== Sys2Proof/Machine/Step.lean ====
section
/-! DEFINITION. The step, and the host's probe that puts an instruction where the next step fetches it. -/

namespace Sys2Proof.Machine

/-- One `step()` of the block (30_encoding.md R56). -/
def step (s : State) : Host.Outcome State Fault Refusal := Sys2Proof.Machine.fdeStep s

/-- `s` with the table word's byte at `pc`. DESIGN CHOICE (safe): where `s` could not fetch at all, it is also made
Running, and a `pc` above 15 becomes 0; in a Running state with `pc` at most 15 only that cell is written. The word
stands for the load of an image by the host (log 10). -/
def State.withFetchWord (s : State) (nbits w : Nat) : State :=
  Sys2Proof.Machine.placeFetchByte (Sys2Proof.tableByte nbits w) s

end Sys2Proof.Machine
end

