-- ==== Sys2Proof/Machine/Arbiter.lean ====
section
/-! DEFINITION. The order of the memory accesses (20_memory.md R33, R34): which cells a step reads and writes, in
order. The list is not state; it is a function of the state before the step (log 18). -/

namespace Sys2Proof.Machine

/-- One core or host access to one cell. -/
inductive Access where
  | read (a : Nibble)
  | write (a : Nibble) (v : Byte)
  deriving DecidableEq, Repr

def Access.isWrite : Access → Bool
  | .read _ => false
  | .write _ _ => true

/-- The accesses an instruction makes after its fetch (the rows of R34). -/
def execAccesses (i : Instr) (s : State) : List Access :=
  match i with
  | .hlt _ | .jmp _ | .jmz _ => []
  | .lda d | .add d | .sub d => [.read (directAddr d)]
  | .ldi d => [.read d, .read (indirectAddr d s)]
  | .sta d => [.write (directAddr d) s.acc]
  | .sti d => [.read d, .write (indirectAddr d s) s.acc]
  | .reserved9 _ | .reserved10 _ | .reserved11 _ | .reserved12 _ | .reserved13 _ | .reserved14 _
  | .reserved15 _ => []

/-- The accesses of a step, in order: none where it fails before the fetch, else the fetch and the instruction's own
(R34). -/
def stepAccesses (s : State) : List Access :=
  match s.run with
  | .halted => []
  | .faulted _ => []
  | .running =>
    if s.pc.toNat < Config.memCells then .read (fetchAddr s) :: execAccesses (decode (fetchByte s)) s else []

/-- What a cell holds after a sequence of accesses, when it held `v` before: the latest write (R41). -/
def latestWrite (v : Byte) : List Access → Nibble → Byte
  | [], _ => v
  | .read _ :: log, a => latestWrite v log a
  | .write b w :: log, a => latestWrite (if b = a then w else v) log a

end Sys2Proof.Machine
end

