-- ==== Sys2Proof/Machine/HostPort.lean ====
section
/-! DEFINITION. The host's port (10_state.md R24, 20_memory.md R31, R32, 60_exceptions.md R81, R82): the validated
memory operations, the queries, and one transaction after another. -/

namespace Sys2Proof.Machine

/-- The code of a response (60_exceptions.md R82). DESIGN CHOICE of the spec (its decision D11), safe: only the
numbers are chosen (log 7). -/
def Response.code : Response → Nat
  | .ok => 0
  | .okRead _ => 0
  | .outOfRange _ => 1
  | .invalidValue _ => 2
  | .illegalOpcode _ => 3
  | .alreadyHalted => 4
  | .alreadyFaulted _ => 5

/-- A stored fault reason as the info of AlreadyFaulted: code 1 or code 3 (60_exceptions.md R82). -/
def FaultReason.code : FaultReason → Nat
  | .outOfRange => 1
  | .illegalOpcode => 3

/-- The info field of a response (60_exceptions.md R82). -/
def Response.info : Response → Option Int
  | .ok => none
  | .okRead v => some v.toNat
  | .outOfRange addr => some addr
  | .invalidValue value => some value
  | .illegalOpcode op => some op.toNat
  | .alreadyHalted => none
  | .alreadyFaulted r => some r.code

/-- A response other than ok. -/
def Response.isError (r : Response) : Bool := r.code != 0

/-- The address check of the port: `0 <= addr <= 15`. -/
def addrInRange (addr : Int) : Bool := decide (0 ≤ addr ∧ addr < (Config.memCells : Int))

/-- The value check of the port: `0 <= value <= 255`. -/
def valueInRange (value : Int) : Bool := decide (0 ≤ value ∧ value ≤ (Config.maxCellValue : Int))

/-- The cell a checked host address names. -/
def hostAddr (addr : Int) : Nibble := BitVec.ofInt 4 addr

/-- The byte a checked host value is. -/
def hostValue (value : Int) : Byte := BitVec.ofInt 8 value

/-- `readMemory(addr)`: the value, or OutOfRange, with no side effect and in every run state (20_memory.md R32).
DESIGN CHOICE of the spec (its decisions D9, D10), unsafe: integers are unbounded and the run state is not
checked (log 6). -/
def readMemory (addr : Int) (s : State) : Response :=
  if addrInRange addr then .okRead (memRead (hostAddr addr) s) else .outOfRange addr

/-- `writeMemory(addr, value)`: one cell is overwritten, or an error and no change; the address is checked first
(20_memory.md R31). DESIGN CHOICE of the spec (its decisions D8, D9, D10), unsafe: as `readMemory`, and the order of
the checks (log 6). -/
def writeMemory (addr value : Int) (s : State) : State × Response :=
  if addrInRange addr then
    if valueInRange value then (memWrite (hostAddr addr) (hostValue value) s, .ok) else (s, .invalidValue value)
  else (s, .outOfRange addr)

/-- `getAccumulator()` (10_state.md R24). -/
def getAccumulator (s : State) : Byte := s.acc

/-- `getProgramCounter()`: 0 to 16 (10_state.md R24). -/
def getProgramCounter (s : State) : PcWord := s.pc

/-- `isHalted()`: `run == Halted` (10_state.md R19, R24). -/
def isHalted (s : State) : Bool := s.halted

/-- The host's operations on an existing block (10_state.md R24). Creation is `State.reset` (log 19). -/
inductive HostOp where
  | readMemory (addr : Int)
  | writeMemory (addr value : Int)
  | getAccumulator
  | getProgramCounter
  | isHalted
  | step
  deriving DecidableEq, Repr

/-- One indivisible transaction (20_memory.md R33, R38), its response kept in the state. A query's value is its own
function of the state; DEDUCED (safe): its response is `ok` with no info, as R82 gives an info to `readMemory`
only (log 7). -/
def transact (op : HostOp) (s : State) : Host.Outcome State Fault Refusal :=
  match op with
  | .readMemory addr => .next (respond (readMemory addr s) s)
  | .writeMemory addr value => .next (respond (writeMemory addr value s).2 (writeMemory addr value s).1)
  | .getAccumulator => .next (respond .ok s)
  | .getProgramCounter => .next (respond .ok s)
  | .isHalted => .next (respond .ok s)
  | .step => step s

/-- The accesses of one transaction, in order. -/
def opAccesses (op : HostOp) (s : State) : List Access :=
  match op with
  | .readMemory addr => if addrInRange addr then [.read (hostAddr addr)] else []
  | .writeMemory addr value =>
    if addrInRange addr && valueInRange value then [.write (hostAddr addr) (hostValue value)] else []
  | .getAccumulator => []
  | .getProgramCounter => []
  | .isHalted => []
  | .step => stepAccesses s

/-- Transactions served one after another, in the host's order (20_memory.md R33, R41). -/
def serve : List HostOp → State → Host.Outcome State Fault Refusal
  | [], s => .next s
  | op :: ops, s =>
    match transact op s with
    | .next t => serve ops t
    | .fault f => .fault f
    | .refused r => .refused r

/-- The one total order of accesses that a sequence of transactions makes (20_memory.md R41). -/
def history : List HostOp → State → List Access
  | [], _ => []
  | op :: ops, s =>
    opAccesses op s ++
      match transact op s with
      | .next t => history ops t
      | .fault _ => []
      | .refused _ => []

end Sys2Proof.Machine
end

