-- ==== Sys2Proof/Machine/Driver.lean ====
section
/-! DEFINITION. The host software that drives the block, as data (60_exceptions.md R97 to R100): the load of an image,
the bounded loop, and the snapshot of a trace line. It is not behaviour of the block. Text formats are out of scope
(00_scope.md R5). -/

namespace Sys2Proof.Machine

/-- How a load ends (R97). -/
inductive LoadEnd where
  | loaded
  /-- Token `k` is not hexadecimal. -/
  | parseError (k : Nat)
  /-- The write of token `k` failed. -/
  | writeError (k : Nat) (e : Response)
  deriving DecidableEq, Repr

/-- The load of tokens from address `k` on: token `k` is written to address `k`, and the first failure ends the load;
writes already made stay made (R97). A token is the integer it parses to, or `none` where it is not hexadecimal:
DESIGN CHOICE, safe (log 13). -/
def loadFrom : Nat → List (Option Int) → State → State × LoadEnd
  | _, [], s => (s, .loaded)
  | k, none :: _, s => (s, .parseError k)
  | k, some v :: rest, s =>
    let w := writeMemory k v s
    if w.2.isError then (respond w.2 w.1, .writeError k w.2) else loadFrom (k + 1) rest (respond w.2 w.1)

/-- The load string, token by token, from address 0. DESIGN CHOICE, unsafe: a load of no token succeeds and
writes nothing (log 20). -/
def hostLoad (tokens : List (Option Int)) (s : State) : State × LoadEnd := loadFrom 0 tokens s

/-- What a trace line holds: the 16 cells, the accumulator and the program counter (R99). -/
structure Snapshot where
  cells : List Byte
  acc : Byte
  pc : PcWord
  deriving DecidableEq, Repr

def snapshot (s : State) : Snapshot where
  cells := (List.range Config.memCells).map s.mem.read
  acc := getAccumulator s
  pc := getProgramCounter s

/-- The loop's report, with the count of steps that returned ok (R98; the count is the spec's decision D15, log 13). -/
inductive Report where
  | halted (n : Nat)
  | cycleLimit (n : Nat)
  | interrupted (n : Nat) (e : Response)
  /-- The load failed, and no step ran. DESIGN CHOICE, unsafe: a report of its own (log 20). -/
  | loadFailed (e : LoadEnd)
  /-- The model's own: a step from an unreachable `pc` (log 2). -/
  | stuck (n : Nat)
  deriving DecidableEq, Repr

/-- The cycle limit: `none` is the default, `infinity` ("unbounded by default", R98). -/
abbrev CycleLimit := Option Nat

/-- `n >= limit`, which no count meets where the limit is infinity (R98). -/
def limitReached : CycleLimit → Nat → Bool
  | none, _ => false
  | some limit, n => decide (limit ≤ n)

/-- What one pass of the loop does: it ends the run, or an instruction was executed and the loop goes on. -/
inductive Pass where
  | ended (r : Report) (final : State)
  | executed (t : State)
  deriving DecidableEq, Repr

/-- One pass of the loop of R98 with the count `n` so far, its checks in R98's order. -/
def loopPass (limit : CycleLimit) (n : Nat) (s : State) : Pass :=
  if isHalted s then .ended (.halted n) s
  else if limitReached limit n then .ended (.cycleLimit n) s
  else
    match step s with
    | .next t => if t.response.isError then .ended (.interrupted n t.response) t else .executed t
    | .fault _ => .ended (.stuck n) s
    | .refused _ => .ended (.stuck n) s

/-- A run as it stands after some passes of the loop: its report once it has ended, `none` while it goes on; the
state; and the snapshots so far. -/
structure RunView where
  report : Option Report
  state : State
  trace : List Snapshot
  deriving DecidableEq, Repr

/-- The loop of R98, seen after at most `passes` passes, from the count `n`. A run without an end is the views of all
numbers of passes. -/
def hostLoop (limit : CycleLimit) : (passes : Nat) → (n : Nat) → State → RunView
  | 0, _, s => ⟨none, s, []⟩
  | passes + 1, n, s =>
    match loopPass limit n s with
    | .ended r t => ⟨some r, t, []⟩
    | .executed t =>
      let v := hostLoop limit passes (n + 1) t
      ⟨v.report, v.state, snapshot t :: v.trace⟩

/-- `host_run(loadString, limit := infinity)`: create, load, trace, then the loop, seen after at most `passes` passes
(R98). A load failure ends the run and no step runs. DESIGN CHOICE, unsafe: that end has the report `loadFailed` of
its own, since 91_not_in_source.md N14 leaves open whether it is reported as "Interrupted" (log 20). -/
def hostRun (tokens : List (Option Int)) (passes : Nat) (limit : CycleLimit := none) : RunView :=
  match hostLoad tokens State.reset with
  | (s, .loaded) =>
    let v := hostLoop limit passes 0 s
    ⟨v.report, v.state, snapshot s :: v.trace⟩
  | (s, e) => ⟨some (.loadFailed e), s, []⟩

/-- The whole run ends, in this view with its report (R98, R100). -/
def RunEndsIn (tokens : List (Option Int)) (limit : CycleLimit) (v : RunView) : Prop :=
  v.report.isSome = true ∧ ∃ passes, hostRun tokens passes limit = v

/-- The whole run never ends: only an unlimited run of a program that never halts (R100; 93_implementation_defined.md
I11). -/
def RunNeverEnds (tokens : List (Option Int)) (limit : CycleLimit) : Prop :=
  ∀ passes, (hostRun tokens passes limit).report = none

end Sys2Proof.Machine
end

