-- ==== Sys2Proof/Machine/Assembler.lean ====
section
/-! DEFINITION. The assembler syntax of 30_encoding.md R58 and R59 (the spec's decision D13): text lines to the bytes
of an image. Syntax is not behaviour of the block. DESIGN CHOICE, safe: the points of the text that R58 and R59 leave
open (log 12). -/

namespace Sys2Proof.Machine

inductive Mnemonic where
  | hlt | lda | ldi | sta | sti | add | sub | jmp | jmz
  deriving DecidableEq, Repr

/-- The name of the source's opcode table (R58). -/
def Mnemonic.ofChars : List Char → Option Mnemonic
  | ['H', 'L', 'T'] => some .hlt
  | ['L', 'D', 'A'] => some .lda
  | ['L', 'D', 'I'] => some .ldi
  | ['S', 'T', 'A'] => some .sta
  | ['S', 'T', 'I'] => some .sti
  | ['A', 'D', 'D'] => some .add
  | ['S', 'U', 'B'] => some .sub
  | ['J', 'M', 'P'] => some .jmp
  | ['J', 'M', 'Z'] => some .jmz
  | _ => none

def Mnemonic.instr : Mnemonic → Nibble → Instr
  | .hlt => .hlt
  | .lda => .lda
  | .ldi => .ldi
  | .sta => .sta
  | .sti => .sti
  | .add => .add
  | .sub => .sub
  | .jmp => .jmp
  | .jmz => .jmz

/-- One item of a program: `MNEMONIC n` or `.byte v` (R58, R59). -/
inductive AsmItem where
  | instr (m : Mnemonic) (n : Nat)
  | byte (v : Nat)
  deriving DecidableEq, Repr

inductive AsmError where
  /-- The line is not an item of the syntax. -/
  | badLine
  /-- The number is not decimal and not hexadecimal with `0x`. -/
  | badNumber
  /-- The operand is above 15, or the byte above 255. -/
  | tooLarge
  deriving DecidableEq, Repr

/-- `n` in 0 to 15, `v` in 0 to 255 (R58, R59). -/
def AsmItem.wellFormed : AsmItem → Bool
  | .instr _ n => decide (n ≤ 15)
  | .byte v => decide (v ≤ Config.maxCellValue)

/-- The byte an item places at its address (R58, R59). -/
def AsmItem.toByte : AsmItem → Byte
  | .instr m n => encode (m.instr (BitVec.ofNat 4 n))
  | .byte v => BitVec.ofNat 8 v

def digitValue (base : Nat) (c : Char) : Option Nat :=
  let v :=
    if '0'.toNat ≤ c.toNat ∧ c.toNat ≤ '9'.toNat then some (c.toNat - '0'.toNat)
    else if 'a'.toNat ≤ c.toNat ∧ c.toNat ≤ 'f'.toNat then some (c.toNat - 'a'.toNat + 10)
    else if 'A'.toNat ≤ c.toNat ∧ c.toNat ≤ 'F'.toNat then some (c.toNat - 'A'.toNat + 10)
    else none
  v.bind fun d => if d < base then some d else none

/-- The number that digits spell after a value `acc` already read. -/
def digitsFrom (base : Nat) : Nat → List Char → Option Nat
  | acc, [] => some acc
  | acc, c :: cs => (digitValue base c).bind fun d => digitsFrom base (acc * base + d) cs

/-- Decimal, or hexadecimal with a `0x` prefix (R58). -/
def parseNumber : List Char → Option Nat
  | [] => none
  | ['0', 'x'] => none
  | '0' :: 'x' :: cs => digitsFrom 16 0 cs
  | cs => digitsFrom 10 0 cs

/-- The line up to its comment, which starts with `;` (R58). -/
def stripComment : List Char → List Char
  | [] => []
  | c :: cs => if c = ';' then [] else c :: stripComment cs

/-- The words of a line, which spaces and tabs separate; `w` is the word read so far. -/
def wordsFrom (w : List Char) : List Char → List (List Char)
  | [] => if w.isEmpty then [] else [w]
  | c :: cs =>
    if c = ' ' ∨ c = '\t' then (if w.isEmpty then wordsFrom [] cs else w :: wordsFrom [] cs)
    else wordsFrom (w ++ [c]) cs

/-- An item with its operand read and checked. -/
def checkedItem (build : Nat → AsmItem) (num : List Char) : Except AsmError AsmItem :=
  match parseNumber num with
  | none => .error .badNumber
  | some n => if (build n).wellFormed then .ok (build n) else .error .tooLarge

/-- At most one item a line (R58); HLT may omit its operand, which then is 0. -/
def parseLine (line : List Char) : Except AsmError (Option AsmItem) :=
  match wordsFrom [] (stripComment line) with
  | [] => .ok none
  | [word] => if Mnemonic.ofChars word = some .hlt then .ok (some (.instr .hlt 0)) else .error .badLine
  | [word, num] =>
    if word = ['.', 'b', 'y', 't', 'e'] then (checkedItem .byte num).map some
    else
      match Mnemonic.ofChars word with
      | some m => (checkedItem (.instr m) num).map some
      | none => .error .badLine
  | _ => .error .badLine

/-- The items of a program, in order. -/
def parseLines : List (List Char) → Except AsmError (List AsmItem)
  | [] => .ok []
  | line :: lines =>
    match parseLine line, parseLines lines with
    | .error e, _ => .error e
    | .ok _, .error e => .error e
    | .ok none, .ok items => .ok items
    | .ok (some item), .ok items => .ok (item :: items)

/-- The image of a program: item `k` at address `k` (R58), as the load tokens it is written by (R59). -/
def imageTokens (items : List AsmItem) : List (Option Int) := items.map fun i => some (i.toByte.toNat : Int)

end Sys2Proof.Machine
end

