-- ==== Sys2Proof/Machine/Datapath.lean ====
section
/-! DEFINITION. The four sub-blocks and what each does in each case of a step: the table of 30_encoding.md R57, the
spec's structural reading of the step (its decision D2), which adds no behaviour. -/

namespace Sys2Proof.Machine

/-- The table's column "ALU operation". -/
inductive AluUse where
  | idle
  | op (o : AluOp) (m : Byte)
  | zeroTest
  deriving DecidableEq, Repr

/-- One row of the table: the control signals of one step. A memory write always stores the accumulator. -/
structure Control where
  aluUse : AluUse
  accWritten : Bool
  pcSelect : PcSel
  memWriteAt : Option Nibble
  runWritten : Option RunState
  response : Response
  deriving DecidableEq, Repr

/-- The rows of the instructions and of the reserved opcodes. -/
def instrControl (i : Instr) (s : State) : Control :=
  match i with
  | .hlt _ => ⟨.idle, false, .inc, none, some .halted, .ok⟩
  | .lda d => ⟨.op .pass (memRead d s), true, .inc, none, none, .ok⟩
  | .ldi d => ⟨.op .pass (memRead (dataField (memRead d s)) s), true, .inc, none, none, .ok⟩
  | .sta d => ⟨.idle, false, .inc, some d, none, .ok⟩
  | .sti d => ⟨.idle, false, .inc, some (dataField (memRead d s)), none, .ok⟩
  | .add d => ⟨.op .add (memRead d s), true, .inc, none, none, .ok⟩
  | .sub d => ⟨.op .sub (memRead d s), true, .inc, none, none, .ok⟩
  | .jmp d => ⟨.idle, false, .jump d, none, none, .ok⟩
  | .jmz d => ⟨.zeroTest, false, if aluZero s.acc then .jump d else .inc, none, none, .ok⟩
  | .reserved9 _ => ⟨.idle, false, .inc, none, some (.faulted .illegalOpcode), .illegalOpcode 9⟩
  | .reserved10 _ => ⟨.idle, false, .inc, none, some (.faulted .illegalOpcode), .illegalOpcode 10⟩
  | .reserved11 _ => ⟨.idle, false, .inc, none, some (.faulted .illegalOpcode), .illegalOpcode 11⟩
  | .reserved12 _ => ⟨.idle, false, .inc, none, some (.faulted .illegalOpcode), .illegalOpcode 12⟩
  | .reserved13 _ => ⟨.idle, false, .inc, none, some (.faulted .illegalOpcode), .illegalOpcode 13⟩
  | .reserved14 _ => ⟨.idle, false, .inc, none, some (.faulted .illegalOpcode), .illegalOpcode 14⟩
  | .reserved15 _ => ⟨.idle, false, .inc, none, some (.faulted .illegalOpcode), .illegalOpcode 15⟩

/-- The row of the next step, the rows "fetch at 16", "AlreadyHalted" and "AlreadyFaulted" included. -/
def stepControl (s : State) : Control :=
  match s.run with
  | .halted => ⟨.idle, false, .hold, none, none, .alreadyHalted⟩
  | .faulted r => ⟨.idle, false, .hold, none, none, .alreadyFaulted r⟩
  | .running =>
    if s.pc.toNat = Config.memCells then
      ⟨.idle, false, .hold, none, some (.faulted .outOfRange), .outOfRange 16⟩
    else instrControl (decode (fetchByte s)) s

/-- The ALU's output under a row; the accumulator's own value where the ALU gives none. -/
def Control.aluOutput (c : Control) (acc : Byte) : Byte :=
  match c.aluUse with
  | .op o m => alu o acc m
  | .idle => acc
  | .zeroTest => acc

/-- The state after a step with the given control signals: every sub-block works from the state before it. -/
def Control.apply (c : Control) (s : State) : State where
  mem := match c.memWriteAt with
    | some a => s.mem.write a.toNat s.acc
    | none => s.mem
  pc := pcMux c.pcSelect s.pc
  acc := if c.accWritten then c.aluOutput s.acc else s.acc
  run := c.runWritten.getD s.run
  response := c.response

end Sys2Proof.Machine
end

