-- ==== Sys2Proof/Safety.lean ====
section
/-! DEFINITION. What counts as a legal state and a safe one, in the terms the statements use. -/

namespace Sys2Proof.Machine

/-- What the run state says about `pc`: a halted or illegal-opcode state has executed or fetched an instruction, so
`pc` is at least 1 (40_halt.md R67, 30_encoding.md R55); the fetch fault is taken at 16 only (60_exceptions.md R86). -/
def pcFitsRun : RunState → PcWord → Bool
  | .running, _ => true
  | .halted, pc => decide (1 ≤ pc.toNat)
  | .faulted .illegalOpcode, pc => decide (1 ≤ pc.toNat)
  | .faulted .outOfRange, pc => pc == 16

/-- The invariant of the block: memory in canonical form, `pc` one of 0 to 16 (10_state.md R15), and `pc` as the run
state says. -/
abbrev State.Inv (s : State) : Prop :=
  s.mem.wf ∧ s.pc.toNat ≤ Config.memCells ∧ pcFitsRun s.run s.pc = true

/-- Every item of state the spec gives the block is the same (10_state.md R25); only the model's own `response` may
differ. -/
abbrev sameBlock (s t : State) : Prop := t.mem = s.mem ∧ t.pc = s.pc ∧ t.acc = s.acc ∧ t.run = s.run

/-- Every byte of memory reads as before. -/
abbrev sameMemory (s t : State) : Prop := ∀ a : Nat, t.mem.read a = s.mem.read a

/-- The next step fetches and executes: the block is Running and `pc` is the address of a cell (30_encoding.md R56). -/
abbrev State.fetches (s : State) : Prop := s.run = .running ∧ s.pc.toNat < Config.memCells

/-- The byte the next step fetches. -/
abbrev State.byteAtPc (s : State) : Byte := s.mem.read s.pc.toNat

/-- A state in which no fault has been taken (60_exceptions.md R84, R100). -/
abbrev State.unfaulted (s : State) : Prop := ∀ r, s.run ≠ .faulted r

end Sys2Proof.Machine
end

