-- ==== Sys2Proof/Certificates/Slice0/Obligations.lean ====
section
/-! DEFINITION. The statements for the provers. "log n" is notes/assumptions/n.md. The `response` field is where the
model keeps a transaction's result (log 1); a clause `response = .ok` says that the instruction raises no error. -/

open Sys2Proof Sys2Proof.Machine

/-! ## Reset, encoding -/

/-- R26: the state on creation. -/
def Obligations.ResetIsCreationState : Prop :=
  (∀ a : Nat, a < 16 → State.reset.mem.read a = 0x00#8) ∧ State.reset.pc = 0 ∧ State.reset.acc = 0x00#8 ∧
  State.reset.run = .running ∧ State.reset.halted = false

/-- The 13 bytes of 95_test_vectors.md section 2.1 decode to what it says. -/
def Obligations.WrittenOutBytesDecode : Prop :=
  decode 0b00000000#8 = .hlt 0 ∧ decode 0b00001111#8 = .hlt 15 ∧ decode 0b00010000#8 = .lda 0 ∧
  decode 0b00101100#8 = .ldi 12 ∧ decode 0b00111111#8 = .sta 15 ∧ decode 0b01001110#8 = .sti 14 ∧
  decode 0b01010001#8 = .add 1 ∧ decode 0b01101101#8 = .sub 13 ∧ decode 0b01110000#8 = .jmp 0 ∧
  decode 0b10001111#8 = .jmz 15 ∧ decode 0b10010000#8 = .reserved9 0 ∧ decode 0b10100101#8 = .reserved10 5 ∧
  decode 0b11111111#8 = .reserved15 15

/-- R48: one format of one byte, the opcode its high nibble and the data field its low nibble, both unsigned. -/
def Obligations.OneByteFormatHasTwoNibbles : Prop :=
  ∀ (b : Byte) (rest : List Byte),
    (decode b).opcode.toNat = b.toNat / 16 ∧ (decode b).data.toNat = b.toNat % 16 ∧
    decodeBytes (b :: rest) = .ok (decode b, rest)

/-- R52: the legal bytes are exactly 0x00 to 0x8F, every data value is legal with opcodes 0 to 8, and the sixteen HLT
bytes have the same effect. -/
def Obligations.LegalBytesAreOpcodesZeroToEight : Prop :=
  (∀ b : Byte, (decode b).wellFormed = true ↔ b.toNat ≤ 0x8F) ∧
  (∀ k d : Nat, k ≤ 8 → d ≤ 15 →
    (decode (BitVec.ofNat 8 (16 * k + d))).wellFormed = true ∧
    (decode (BitVec.ofNat 8 (16 * k + d))).opcode.toNat = k ∧ (decode (BitVec.ofNat 8 (16 * k + d))).data.toNat = d) ∧
  (∀ (b : Byte) (s : State), b.toNat ≤ 0x0F →
    (∃ d, decode b = .hlt d) ∧ exec (decode b) s = exec (decode 0x00#8) s)

/-- Decoding and encoding are inverse: every instruction has exactly one byte and every byte exactly one instruction
(30_encoding.md section 3; the reserved constructors with their data field are the model's choice, log 11). -/
def Obligations.DecodeAndEncodeAreInverse : Prop :=
  ∀ (i : Instr) (b : Byte), decode b = i ↔ encode i = b

/-! ## The instructions: encoding, effect and frame

`exec` runs after the fetch and increment, so `s.pc` is the fetched address plus one (log 15). Every statement says
that `exec` answers a next state, for every state and operand. -/

/-- R67: HLT. The run state becomes Halted, nothing else changes, and every later step fails with AlreadyHalted. -/
def Obligations.HltHalts : Prop :=
  ∀ (d : Nibble) (s : State),
    decode (BitVec.ofNat 8 (0x00 + d.toNat)) = .hlt d ∧
    ∃ t, exec (.hlt d) s = .next t ∧ t.run = .halted ∧ t.halted = true ∧ t.response = .ok ∧
      t.acc = s.acc ∧ t.pc = s.pc ∧ sameMemory s t ∧
      ∃ u, step t = .next u ∧ u.response = .alreadyHalted ∧ sameBlock t u

/-- R68: LDA. The accumulator takes the cell at the direct address. -/
def Obligations.LdaLoadsDirect : Prop :=
  ∀ (d : Nibble) (s : State),
    decode (BitVec.ofNat 8 (0x10 + d.toNat)) = .lda d ∧
    ∃ t, exec (.lda d) s = .next t ∧ t.acc = s.mem.read d.toNat ∧
      t.pc = s.pc ∧ t.run = s.run ∧ t.response = .ok ∧ sameMemory s t

/-- R69: LDI. The low four bits of the cell at `d` are the address of the cell the accumulator takes. -/
def Obligations.LdiLoadsIndirect : Prop :=
  ∀ (d : Nibble) (s : State),
    decode (BitVec.ofNat 8 (0x20 + d.toNat)) = .ldi d ∧
    ∃ t, exec (.ldi d) s = .next t ∧ t.acc = s.mem.read ((s.mem.read d.toNat).toNat % 16) ∧
      t.pc = s.pc ∧ t.run = s.run ∧ t.response = .ok ∧ sameMemory s t

/-- R70: STA. The accumulator is stored to the direct address; every other byte reads as before. -/
def Obligations.StaStoresDirect : Prop :=
  ∀ (d : Nibble) (s : State),
    decode (BitVec.ofNat 8 (0x30 + d.toNat)) = .sta d ∧
    ∃ t, exec (.sta d) s = .next t ∧ (directAddr d).toNat = d.toNat ∧
      t.mem.read (directAddr d).toNat = s.acc ∧
      (∀ a : Nat, a ≠ (directAddr d).toNat → t.mem.read a = s.mem.read a) ∧
      t.acc = s.acc ∧ t.pc = s.pc ∧ t.run = s.run ∧ t.response = .ok

/-- R71: STI. The accumulator is stored to the address in the low four bits of the cell at `d` as it was before the
store; every other byte reads as before. -/
def Obligations.StiStoresIndirect : Prop :=
  ∀ (d : Nibble) (s : State),
    decode (BitVec.ofNat 8 (0x40 + d.toNat)) = .sti d ∧
    ∃ t, exec (.sti d) s = .next t ∧ (indirectAddr d s).toNat = (s.mem.read d.toNat).toNat % 16 ∧
      t.mem.read (indirectAddr d s).toNat = s.acc ∧
      (∀ a : Nat, a ≠ (indirectAddr d s).toNat → t.mem.read a = s.mem.read a) ∧
      t.acc = s.acc ∧ t.pc = s.pc ∧ t.run = s.run ∧ t.response = .ok

/-- R73: ADD, modulo 256, with no flag and no trap. -/
def Obligations.AddWrapsModulo256 : Prop :=
  ∀ (d : Nibble) (s : State),
    decode (BitVec.ofNat 8 (0x50 + d.toNat)) = .add d ∧
    ∃ t, exec (.add d) s = .next t ∧ t.acc.toNat = (s.acc.toNat + (s.mem.read d.toNat).toNat) % 256 ∧
      t.pc = s.pc ∧ t.run = s.run ∧ t.response = .ok ∧ sameMemory s t

/-- R74: SUB, the non-negative remainder modulo 256, with no flag and no trap. -/
def Obligations.SubWrapsModulo256 : Prop :=
  ∀ (d : Nibble) (s : State),
    decode (BitVec.ofNat 8 (0x60 + d.toNat)) = .sub d ∧
    ∃ t, exec (.sub d) s = .next t ∧
      (t.acc.toNat : Int) = ((s.acc.toNat : Int) - ((s.mem.read d.toNat).toNat : Int)) % 256 ∧
      t.pc = s.pc ∧ t.run = s.run ∧ t.response = .ok ∧ sameMemory s t

/-- R78: JMP. -/
def Obligations.JmpJumps : Prop :=
  ∀ (d : Nibble) (s : State),
    decode (BitVec.ofNat 8 (0x70 + d.toNat)) = .jmp d ∧
    ∃ t, exec (.jmp d) s = .next t ∧ t.pc.toNat = d.toNat ∧
      t.acc = s.acc ∧ t.run = s.run ∧ t.response = .ok ∧ sameMemory s t

/-- R79: JMZ, taken exactly when the accumulator is zero. -/
def Obligations.JmzJumpsOnZero : Prop :=
  ∀ (d : Nibble) (s : State),
    decode (BitVec.ofNat 8 (0x80 + d.toNat)) = .jmz d ∧
    ∃ t, exec (.jmz d) s = .next t ∧ t.pc.toNat = (if s.acc.toNat = 0 then d.toNat else s.pc.toNat) ∧
      t.acc = s.acc ∧ t.run = s.run ∧ t.response = .ok ∧ sameMemory s t

/-- The reserved opcodes 9 to 15: each of their instructions is the decoding of bytes 0x90 to 0xFF, takes the
illegal-opcode fault whatever its data field, reports its opcode, and leaves the accumulator, memory and the already
incremented `pc`; every later step fails with AlreadyFaulted(IllegalOpcode). What the fault leaves in `pc` and the
AlreadyFaulted report are the spec's own decisions D4 and D5 (log 3, log 5). -/
def Obligations.ReservedOpcodesFault : Prop :=
  (∀ b : Byte, 0x90 ≤ b.toNat →
    ∃ d, decode b ∈ [.reserved9 d, .reserved10 d, .reserved11 d, .reserved12 d, .reserved13 d, .reserved14 d,
      .reserved15 d]) ∧
  ∀ (d : Nibble) (s : State) (i : Instr),
    i ∈ [.reserved9 d, .reserved10 d, .reserved11 d, .reserved12 d, .reserved13 d, .reserved14 d, .reserved15 d] →
    9 ≤ i.opcode.toNat ∧ decode (BitVec.ofNat 8 (16 * i.opcode.toNat + d.toNat)) = i ∧
    ∃ t, exec i s = .next t ∧ t.run = .faulted .illegalOpcode ∧ t.halted = false ∧
      t.response = .illegalOpcode i.opcode ∧ t.acc = s.acc ∧ t.pc = s.pc ∧ sameMemory s t ∧
      ∃ u, step t = .next u ∧ u.response = .alreadyFaulted .illegalOpcode ∧ sameBlock t u

/-- ADD then SUB of the same cell restores the accumulator, with memory and `pc` as before (42_arithmetic.md R76, a
rule the spec marks derived). -/
def Obligations.SubUndoesAdd : Prop :=
  ∀ (d : Nibble) (s : State),
    ∃ t u, exec (.add d) s = .next t ∧ exec (.sub d) t = .next u ∧ sameBlock s u ∧
    ∃ v w, exec (.sub d) s = .next v ∧ exec (.add d) v = .next w ∧ sameBlock s w

/-! ## The step -/

/-- A step of a Running block at `pc` 0 to 15 is `exec` of the instruction its byte decodes to, at the state whose
`pc` is one more (30_encoding.md section 5). The increment is not masked to four bits. -/
def Obligations.StepRunsDecodedInstruction : Prop :=
  ∀ (s : State) (i : Instr), s.fetches → decode s.byteAtPc = i →
    step s = exec i { s with pc := s.pc + 1 } ∧ (s.pc + 1).toNat = s.pc.toNat + 1

/-- A table word placed where the step fetches is what the next step runs, from every state; what the placing changes
besides that cell is the model's choice (log 10), and in a state that can fetch it changes nothing else. -/
def Obligations.StepRunsPlacedWord : Prop :=
  ∀ (s : State) (w : Nat),
    ∃ u, step (s.withFetchWord 8 w) = exec (decode (BitVec.ofNat 8 w)) u ∧
      decodeTableWord 8 w = some (decode (BitVec.ofNat 8 w)) ∧ u.acc = s.acc ∧ u.run = .running ∧
      (s.fetches → u.pc.toNat = s.pc.toNat + 1 ∧ u.mem.read s.pc.toNat = BitVec.ofNat 8 w ∧
        ∀ a : Nat, a ≠ s.pc.toNat → u.mem.read a = s.mem.read a)

/-- R91: a step while Halted fails with AlreadyHalted and changes no state, whatever `pc` is. -/
def Obligations.HaltedStepIsRejected : Prop :=
  ∀ s : State, s.run = .halted → ∃ t, step s = .next t ∧ t.response = .alreadyHalted ∧ sameBlock s t

/-- A step while Faulted(r) fails with AlreadyFaulted(r) and changes no state, whatever `pc` is. The report is the
spec's own decision D5 (log 5). -/
def Obligations.FaultedStepIsRejected : Prop :=
  ∀ (s : State) (r : FaultReason), s.run = .faulted r →
    ∃ t, step s = .next t ∧ t.response = .alreadyFaulted r ∧ sameBlock s t

/-- A step while Running with `pc` = 16 raises OutOfRange(16), becomes Faulted(OutOfRange) and changes nothing else.
The fault and what it leaves are the spec's own decisions D1 and D6 (log 4). -/
def Obligations.FetchPastEndFaults : Prop :=
  ∀ s : State, s.run = .running → s.pc = 16 →
    ∃ t, step s = .next t ∧ t.response = .outOfRange 16 ∧ t.run = .faulted .outOfRange ∧ t.halted = false ∧
      t.pc = 16 ∧ t.acc = s.acc ∧ sameMemory s t

/-- The model's own stop (log 2): a step answers no next state exactly where the block is Running with a `pc` the spec
calls unreachable, it then answers that fault, and it never refuses. -/
def Obligations.StepStopsOnlyAtUnreachablePc : Prop :=
  ∀ s : State,
    (∀ f, step s = .fault f ↔ s.run = .running ∧ 17 ≤ s.pc.toNat ∧ f = .unreachablePc s.pc) ∧
    (∀ r, step s ≠ .refused r)

/-- No instruction stops: `exec` answers a next state for every instruction and state, it reports ok exactly for the
nine legal instructions, and it faults exactly for the reserved ones. -/
def Obligations.EveryInstructionCompletes : Prop :=
  ∀ (i : Instr) (s : State), ∃ t, exec i s = .next t ∧ (t.response = .ok ↔ i.wellFormed = true) ∧
    (s.unfaulted → ((¬ t.unfaulted) ↔ i.wellFormed = false))

/-- The order of a step's checks: Halted, Faulted, `pc` = 16, illegal opcode; an executed opcode 0 to 8 reports ok.
That pc = 16 reports OutOfRange(16) is the spec's own decision D1 (log 4), the AlreadyFaulted report its decision D5 and
the order its decision D7 (log 5). -/
def Obligations.StepReportsFirstFailingCheck : Prop :=
  ∀ s : State, s.pc.toNat ≤ 16 →
    ∃ t, step s = .next t ∧
      t.response =
        if s.run = .halted then .alreadyHalted
        else if s.run = .faulted .illegalOpcode then .alreadyFaulted .illegalOpcode
        else if s.run = .faulted .outOfRange then .alreadyFaulted .outOfRange
        else if s.pc = 16 then .outOfRange 16
        else if 9 ≤ s.byteAtPc.toNat / 16 then .illegalOpcode (BitVec.ofNat 4 (s.byteAtPc.toNat / 16))
        else .ok

/-- The run-state table: a Running block stays Running on opcodes 1 to 8, halts on opcode 0, faults on opcodes 9 to 15
and on a fetch at 16, and a Halted or Faulted block stays so. The rows of `pc` = 16 and of Faulted are the spec's own
decisions D1 and D5 (log 4, log 5). -/
def Obligations.RunStateFollowsTable : Prop :=
  ∀ s : State, s.pc.toNat ≤ 16 →
    ∃ t, step s = .next t ∧
      (s.run ≠ .running → t.run = s.run) ∧
      (s.run = .running → s.pc = 16 → t.run = .faulted .outOfRange) ∧
      (s.run = .running → s.pc.toNat ≤ 15 →
        t.run =
          if s.byteAtPc.toNat / 16 = 0 then .halted
          else if s.byteAtPc.toNat / 16 ≤ 8 then .running
          else .faulted .illegalOpcode)

/-- The next `pc`: a taken jump gives its data field and everything else the fetched address plus one, so `pc` becomes
16 exactly when the instruction at 15 executes and does not jump; a step that fails before its fetch leaves it. The
value 16 is the spec's own decision D1 (log 2, log 4); the `pc` that a reserved opcode leaves, pc + 1, is its decision D4
(log 3); and the `pc` that a step at 16 or of a faulted block leaves is its decisions D6 and D5 (log 4, log 5). -/
def Obligations.PcIsIncrementedOrJumpTarget : Prop :=
  ∀ s : State, s.pc.toNat ≤ 16 →
    ∃ t, step s = .next t ∧ t.pc.toNat ≤ 16 ∧ (t.pc.getLsbD 4 = true ↔ t.pc = 16) ∧
      (¬ s.fetches → t.pc = s.pc) ∧
      (s.fetches →
        (s.byteAtPc.toNat / 16 = 7 ∨ (s.byteAtPc.toNat / 16 = 8 ∧ s.acc = 0) → t.pc.toNat = s.byteAtPc.toNat % 16) ∧
        (¬ (s.byteAtPc.toNat / 16 = 7 ∨ (s.byteAtPc.toNat / 16 = 8 ∧ s.acc = 0)) → t.pc.toNat = s.pc.toNat + 1) ∧
        (t.pc = 16 ↔
          s.pc = 15 ∧ ¬ (s.byteAtPc.toNat / 16 = 7 ∨ (s.byteAtPc.toNat / 16 = 8 ∧ s.acc = 0))))

/-- Faults are precise and rejections change nothing (60_exceptions.md R84, R88, which the spec derives): a step that
does not answer ok leaves the accumulator and memory; it changes `pc` only for an illegal opcode, by one; and it
changes the run state only by taking one of the two faults. The fault at pc = 16 and the `pc` of a fault are the spec's
own decisions D1, D4 and D6 (log 3, log 4), and that a faulted step changes nothing its decision D5 (log 5). -/
def Obligations.FailedStepIsPrecise : Prop :=
  ∀ s t : State, step s = .next t → t.response ≠ .ok →
    t.acc = s.acc ∧ sameMemory s t ∧
    ((t.pc = s.pc ∧ t.run = s.run ∧ s.run ≠ .running) ∨
     (t.pc = s.pc ∧ s.run = .running ∧ s.pc = 16 ∧ t.run = .faulted .outOfRange) ∨
     (t.pc.toNat = s.pc.toNat + 1 ∧ s.run = .running ∧ t.run = .faulted .illegalOpcode ∧
      9 ≤ s.byteAtPc.toNat / 16))

/-- The program of one JMP to its own address runs for ever: any number of steps leaves the block's state as it is
(43_jump.md section on JMP; 95_test_vectors.md E1). -/
def Obligations.SelfJumpLoopsForever : Prop :=
  ∀ (n : Nat) (s : State), s.fetches → decode s.byteAtPc = .jmp (BitVec.ofNat 4 s.pc.toNat) →
    ∃ t, Sys2Proof.core.run n s = .next t ∧ sameBlock s t

/-- The first step of a new block with no image executes HLT at address 0 (70_reset_and_hazards.md section 2, which
the spec derives). -/
def Obligations.FreshBlockHaltsOnFirstStep : Prop :=
  ∃ t, step State.reset = .next t ∧ t.pc = 1 ∧ t.run = .halted ∧ t.acc = 0 ∧ t.response = .ok ∧
    ∀ a : Nat, t.mem.read a = 0x00#8

/-- A store to the cell at the new `pc` changes the very next instruction executed, and the store itself runs as it was
fetched (20_memory.md section 6, which the spec derives). -/
def Obligations.StoreIsSeenByNextFetch : Prop :=
  ∀ (s : State) (d ea : Nibble), s.fetches →
    (decode s.byteAtPc = .sta d ∧ ea = d) ∨
      (decode s.byteAtPc = .sti d ∧ ea.toNat = (s.mem.read d.toNat).toNat % 16) →
    ∃ t, step s = .next t ∧ t.mem.read ea.toNat = s.acc ∧ t.pc.toNat = s.pc.toNat + 1 ∧
      (ea.toNat = s.pc.toNat + 1 → step t = exec (decode s.acc) { t with pc := t.pc + 1 })

/-! ## The whole machine -/

/-- The invariant: memory in its canonical form (log 8), `pc` 0 to 16, and `pc` as the run state says. Every state in
it has a next state, in it. The values of `pc` rest on the spec's own decisions D1, D4 and D6 (log 2 to 4). -/
def Obligations.StepKeepsBlockInvariant : Prop :=
  ∀ s : State, s.Inv → ∃ t, step s = .next t ∧ t.Inv

/-- The invariant holds at reset. -/
def Obligations.ResetMeetsBlockInvariant : Prop := State.reset.Inv

/-- Every host transaction keeps the invariant, in every run state. The canonical form of memory is the model's (log 8);
the values of `pc` rest on the spec's own decisions D1, D4 and D6 (log 2 to 4), and memory access in every run state on
its decision D10 (log 6). -/
def Obligations.EveryTransactionKeepsBlockInvariant : Prop :=
  ∀ (op : HostOp) (s : State), s.Inv → ∃ t, transact op s = .next t ∧ t.Inv

/-- R13: the 16 cells are written by STA and STI, with the accumulator at their address, and by an accepted
`writeMemory`, with its value; nothing else writes memory, and an instruction is fetched from the same cells. -/
def Obligations.OnlyStoresAndHostWriteMemory : Prop :=
  ∀ (op : HostOp) (s t : State) (a : Nat), transact op s = .next t → t.mem.read a ≠ s.mem.read a →
    a < 16 ∧
    ((∃ value : Int, op = .writeMemory a value ∧ 0 ≤ value ∧ value ≤ 255 ∧
        ((t.mem.read a).toNat : Int) = value) ∨
     (op = .step ∧ s.fetches ∧ t.mem.read a = s.acc ∧
        ((s.byteAtPc.toNat / 16 = 3 ∧ a = s.byteAtPc.toNat % 16) ∨
         (s.byteAtPc.toNat / 16 = 4 ∧ a = (s.mem.read (s.byteAtPc.toNat % 16)).toNat % 16))))

/-- The accumulator is written by LDA, LDI, ADD and SUB only; the host cannot write it (10_state.md section 3). -/
def Obligations.OnlyLoadsAndArithmeticWriteAcc : Prop :=
  ∀ (op : HostOp) (s t : State), transact op s = .next t → t.acc ≠ s.acc →
    op = .step ∧ s.fetches ∧ s.byteAtPc.toNat / 16 ∈ [1, 2, 5, 6]

/-- The halted flag is `run = Halted`, goes from false to true only by executing HLT, and is never reset
(10_state.md section 4; 90_conflicts.md C5). -/
def Obligations.HaltedFlagIsSetByHltOnly : Prop :=
  ∀ (op : HostOp) (s t : State), transact op s = .next t →
    (t.halted = true ↔ t.run = .halted) ∧ (s.halted = true → t.halted = true) ∧
    (s.halted = false → t.halted = true → op = .step ∧ s.fetches ∧ s.byteAtPc.toNat / 16 = 0)

/-- R93: no sequence of transactions, of whatever kind and length, leaves Halted or Faulted. -/
def Obligations.HaltedAndFaultedAreTerminal : Prop :=
  ∀ (ops : List HostOp) (s : State), s.run ≠ .running →
    ∃ t, serve ops s = .next t ∧ t.run = s.run

/-- No transaction reads the response (log 1): a transaction's effect and its own response do not depend on the response
before it. So the field adds no behaviour to the block's state (10_state.md section 5). -/
def Obligations.ResponseIsNeverRead : Prop :=
  ∀ (op : HostOp) (s : State) (r : Response),
    (op = .step → transact op { s with response := r } = transact op s) ∧
    (∀ t, transact op s = .next t →
      ∃ u, transact op { s with response := r } = .next u ∧ sameBlock t u ∧ u.response = t.response)

/-- The sub-blocks' table (30_encoding.md section 5, the spec's own structural reading, decision D2): the control
signals of the case, applied all at once to the state before the step, give the step. The row of pc = 16 is the spec's
own decisions D1 and D6 (log 4), the row of the reserved opcodes its decision D4 (log 3), and the row of Faulted its
decision D5 (log 5). -/
def Obligations.DatapathTableGivesStep : Prop :=
  ∀ s : State, s.pc.toNat ≤ 16 → step s = .next ((stepControl s).apply s)

/-- The accesses of a step and their order (20_memory.md section 3, the table, which the spec derives): at most three
reads and at most one write, and the write last; none where the step fails before its fetch. That a
step at pc = 16 makes none is the spec's own decisions D1 and D6 (log 4). -/
def Obligations.StepAccessesFollowTable : Prop :=
  ∀ s : State,
    (¬ s.fetches → stepAccesses s = []) ∧
    (∀ l₁ x l₂, stepAccesses s = l₁ ++ x :: l₂ → x.isWrite = true → l₂ = []) ∧
    ((stepAccesses s).filter fun x => !x.isWrite).length ≤ 3 ∧
    (s.fetches →
      ∃ pc d p : Nibble, pc.toNat = s.pc.toNat ∧ d.toNat = s.byteAtPc.toNat % 16 ∧
        p.toNat = (s.mem.read d.toNat).toNat % 16 ∧
        stepAccesses s =
          if s.byteAtPc.toNat / 16 ∈ [1, 5, 6] then [.read pc, .read d]
          else if s.byteAtPc.toNat / 16 = 2 then [.read pc, .read d, .read p]
          else if s.byteAtPc.toNat / 16 = 3 then [.read pc, .write d s.acc]
          else if s.byteAtPc.toNat / 16 = 4 then [.read pc, .read d, .write p s.acc]
          else [.read pc])

/-- The listed accesses are all that a step makes (20_memory.md sections 3 and 6, which the spec derives): two states
that agree on the registers and on the cells the step reads make the same accesses, take the same registers, agree on
the cell written, and keep every other cell. -/
def Obligations.StepDependsOnlyOnCellsItReads : Prop :=
  ∀ s₁ s₂ t₁ : State, s₁.pc = s₂.pc → s₁.acc = s₂.acc → s₁.run = s₂.run →
    (∀ a : Nibble, .read a ∈ stepAccesses s₁ → s₁.mem.read a.toNat = s₂.mem.read a.toNat) →
    step s₁ = .next t₁ →
    ∃ t₂, step s₂ = .next t₂ ∧ stepAccesses s₂ = stepAccesses s₁ ∧
      t₁.pc = t₂.pc ∧ t₁.acc = t₂.acc ∧ t₁.run = t₂.run ∧ t₁.response = t₂.response ∧
      ∀ a : Nibble,
        (∀ v, .write a v ∈ stepAccesses s₁ → t₁.mem.read a.toNat = v ∧ t₂.mem.read a.toNat = v) ∧
        ((∀ v, .write a v ∉ stepAccesses s₁) →
          t₁.mem.read a.toNat = s₁.mem.read a.toNat ∧ t₂.mem.read a.toNat = s₂.mem.read a.toNat)

/-- Memory is sequential (20_memory.md section 6, which the spec derives): after any sequence of transactions a cell
holds the latest write to it in the one order of accesses, or what it held before. -/
def Obligations.CellHoldsLatestWrite : Prop :=
  ∀ (ops : List HostOp) (s : State), s.Inv →
    ∃ t, serve ops s = .next t ∧
      ∀ a : Nibble, t.mem.read a.toNat = latestWrite (s.mem.read a.toNat) (history ops s) a

/-! ## The host's port -/

/-- R35: a read after a host write returns the value, with any transactions between but a step and another write to
that address; and what is out of range fails with its error. -/
def Obligations.HostReadReturnsHostWrite : Prop :=
  (∀ (s : State) (addr value : Int) (ops : List HostOp), 0 ≤ addr → addr ≤ 15 → 0 ≤ value → value ≤ 255 →
    (∀ op ∈ ops, op ≠ .step ∧ ∀ v, op ≠ .writeMemory addr v) →
    ∃ (t : State) (b : Byte), serve (.writeMemory addr value :: ops) s = .next t ∧
      readMemory addr t = .okRead b ∧ (b.toNat : Int) = value) ∧
  (∀ (s : State) (addr value : Int), ¬ (0 ≤ addr ∧ addr ≤ 15) →
    readMemory addr s = .outOfRange addr ∧ writeMemory addr value s = (s, .outOfRange addr)) ∧
  (∀ (s : State) (addr value : Int), 0 ≤ addr → addr ≤ 15 → ¬ (0 ≤ value ∧ value ≤ 255) →
    writeMemory addr value s = (s, .invalidValue value))

/-- `writeMemory`: the address is checked before the value, a failed write changes nothing, and a write changes one
cell and nothing else, in every run state. Order, unbounded integers and run states are the spec's own decisions D8,
D9 and D10 (log 6). -/
def Obligations.HostWriteChecksAddressThenValue : Prop :=
  ∀ (s : State) (addr value : Int),
    ∃ t, transact (.writeMemory addr value) s = .next t ∧ t.pc = s.pc ∧ t.acc = s.acc ∧ t.run = s.run ∧
      (if 0 ≤ addr ∧ addr ≤ 15 then
        if 0 ≤ value ∧ value ≤ 255 then
          t.response = .ok ∧ ((t.mem.read addr.toNat).toNat : Int) = value ∧
          ∀ a : Nat, a ≠ addr.toNat → t.mem.read a = s.mem.read a
        else t.response = .invalidValue value ∧ t.mem = s.mem
      else t.response = .outOfRange addr ∧ t.mem = s.mem)

/-- `readMemory` and the three queries answer in every run state and change nothing; the read gives the cell or
OutOfRange. Unbounded integers and run states are the spec's own decisions D9 and D10 (log 6); the response of a
query is the model's reading (log 7). -/
def Obligations.HostReadsChangeNothing : Prop :=
  (∀ (s : State) (addr : Int),
    ∃ t, transact (.readMemory addr) s = .next t ∧ sameBlock s t ∧
      t.response = if 0 ≤ addr ∧ addr ≤ 15 then .okRead (s.mem.read addr.toNat) else .outOfRange addr) ∧
  (∀ (s : State) (op : HostOp), op ∈ [.getAccumulator, .getProgramCounter, .isHalted] →
    ∃ t, transact op s = .next t ∧ sameBlock s t ∧ t.response = .ok) ∧
  (∀ s : State, getAccumulator s = s.acc ∧ getProgramCounter s = s.pc ∧ (isHalted s = true ↔ s.run = .halted))

/-- The numeric codes and infos of the responses, the spec's own decision D11 (log 7). -/
def Obligations.ResponseCodesAndInfos : Prop :=
  (∀ r : Response, r.isError = false ↔ r.code = 0) ∧
  (∀ v : Byte, (Response.okRead v).code = 0 ∧ (Response.okRead v).info = some (v.toNat : Int)) ∧
  Response.ok.code = 0 ∧ Response.ok.info = none ∧
  (∀ a : Int, (Response.outOfRange a).code = 1 ∧ (Response.outOfRange a).info = some a) ∧
  (∀ v : Int, (Response.invalidValue v).code = 2 ∧ (Response.invalidValue v).info = some v) ∧
  (∀ op : Nibble, (Response.illegalOpcode op).code = 3 ∧ (Response.illegalOpcode op).info = some (op.toNat : Int)) ∧
  Response.alreadyHalted.code = 4 ∧ Response.alreadyHalted.info = none ∧
  (Response.alreadyFaulted .outOfRange).code = 5 ∧ (Response.alreadyFaulted .outOfRange).info = some 1 ∧
  (Response.alreadyFaulted .illegalOpcode).code = 5 ∧ (Response.alreadyFaulted .illegalOpcode).info = some 3

/-! ## The host's side -/

/-- A load of at most 16 valid values puts value `k` in cell `k` and keeps the rest; a seventeenth token fails with
OutOfRange, with the 16 writes made (60_exceptions.md section 6; 95_test_vectors.md E3). That the load of no value
succeeds is the model's choice (log 20): 91_not_in_source.md N14 leaves it open. -/
def Obligations.LoadFillsCellsInOrder : Prop :=
  ∀ (values : List Nat) (s : State), (∀ v ∈ values, v ≤ 255) →
    ∃ t : State, t.pc = s.pc ∧ t.acc = s.acc ∧ t.run = s.run ∧
      (∀ k : Nat, k < 16 → ∀ v, values[k]? = some v → (t.mem.read k).toNat = v) ∧
      (∀ k : Nat, (16 ≤ k ∨ values[k]? = none) → t.mem.read k = s.mem.read k) ∧
      (values.length ≤ 16 → hostLoad (values.map fun v : Nat => some (v : Int)) s = (t, .loaded)) ∧
      (17 ≤ values.length →
        hostLoad (values.map fun v : Nat => some (v : Int)) s = (t, .writeError 16 (.outOfRange 16)))

/-- The loop's reports (60_exceptions.md section 6, the spec's own decision D15, log 13), for every limit, infinity
among them: a run that has not ended has executed an instruction in each pass; Halted ends in a halted block; the limit
is reported only where there is one, by a block that is not halted and, from a count within it, exactly at it; an
interruption carries an error and ends faulted; and the count is the number of executed steps traced, which a limit
bounds. -/
def Obligations.DriverLoopReportsTruly : Prop :=
  ∀ (limit : CycleLimit) (passes n : Nat) (s : State) (v : RunView), hostLoop limit passes n s = v →
    v.trace.length ≤ passes ∧
    (v.report = none → v.trace.length = passes) ∧
    (∀ k, v.report = some (.halted k) → v.state.halted = true ∧ k = n + v.trace.length) ∧
    (∀ k, v.report = some (.cycleLimit k) →
      v.state.halted = false ∧ k = n + v.trace.length ∧ ∃ l, limit = some l ∧ l ≤ k ∧ (n ≤ l → k = l)) ∧
    (∀ k r, v.report = some (.interrupted k r) →
      v.state.response = r ∧ r.isError = true ∧ ¬ v.state.unfaulted ∧ k = n + v.trace.length) ∧
    (∀ l, limit = some l → n ≤ l → n + v.trace.length ≤ l) ∧
    (s.Inv → ∀ k, v.report ≠ some (.stuck k))

/-- Limited and unlimited runs (60_exceptions.md section 6, the spec's own decision D15, log 13): an ended run is not
changed by further passes; a limited run ends, after at most one pass more than the limit allows steps; an unlimited
run never reports the limit and agrees with a limited one up to its limit; a run from the load either never ends, which
only an unlimited one can do, or ends in exactly one way; and an unlimited run of a jump to its own address never ends,
the loaded image 0x70 of 95_test_vectors.md E1 among them (43_jump.md corner case (a);
93_implementation_defined.md I11). -/
def Obligations.LimitedRunsEndAndUnlimitedRunsMayNot : Prop :=
  (∀ (limit : CycleLimit) (passes more n : Nat) (s : State), (hostLoop limit passes n s).report ≠ none →
    hostLoop limit (passes + more) n s = hostLoop limit passes n s) ∧
  (∀ (l n : Nat) (s : State), (hostLoop (some l) (l - n + 1) n s).report ≠ none) ∧
  (∀ (passes n k : Nat) (s : State), (hostLoop none passes n s).report ≠ some (.cycleLimit k)) ∧
  (∀ (l passes n : Nat) (s : State), n + passes ≤ l → hostLoop (some l) passes n s = hostLoop none passes n s) ∧
  (∀ (tokens : List (Option Int)) (limit : CycleLimit),
    (RunNeverEnds tokens limit ∧ limit = none ∧ ∀ v, ¬ RunEndsIn tokens limit v) ∨
    (¬ RunNeverEnds tokens limit ∧ ∃ v, RunEndsIn tokens limit v ∧ ∀ w, RunEndsIn tokens limit w → w = v)) ∧
  (∀ (passes n : Nat) (s : State), s.fetches → decode s.byteAtPc = .jmp (BitVec.ofNat 4 s.pc.toNat) →
    (hostLoop none passes n s).report = none) ∧
  RunNeverEnds [some 0x70] none

/-- An assembled program: item `k` stands at address `k` as the byte of its instruction, with its operand as the data
field, or as its raw byte (30_encoding.md section 6, the spec's own decision D13, log 12). That the empty image of no
item loads is the model's choice (log 20): 91_not_in_source.md N14 leaves it open. -/
def Obligations.AssembledItemsStandInOrder : Prop :=
  ∀ (items : List AsmItem), items.length ≤ 16 → (∀ i ∈ items, i.wellFormed = true) →
    ∃ t, hostLoad (imageTokens items) State.reset = (t, .loaded) ∧
      ∀ k : Nat,
        (∀ m n, items[k]? = some (.instr m n) →
          ∃ d : Nibble, d.toNat = n ∧ decode (t.mem.read k) = m.instr d ∧ (m.instr d).wellFormed = true) ∧
        (∀ v, items[k]? = some (.byte v) → (t.mem.read k).toNat = v) ∧
        (items[k]? = none → t.mem.read k = 0x00#8)
end

