-- ==== Sys2Proof/Laws/Decode.lean ====
section
/-! SUPPORT. The two fields of a byte as numbers, and the fields of a byte put together from them. -/

namespace Sys2Proof

theorem opcodeField_toNat (b : Byte) : (opcodeField b).toNat = b.toNat / 16 := by
  have := b.isLt
  simp only [opcodeField, BitVec.extractLsb'_toNat, Nat.shiftRight_eq_div_pow]
  omega

theorem dataField_toNat (b : Byte) : (dataField b).toNat = b.toNat % 16 := by
  simp [dataField, BitVec.extractLsb'_toNat]

theorem opcodeField_append (o d : Nibble) : opcodeField (o ++ d : BitVec 8) = o := by
  revert o d
  decide

theorem dataField_append (o d : Nibble) : dataField (o ++ d : BitVec 8) = d := by
  revert o d
  decide

end Sys2Proof
end

