-- ==== Sys2Proof/Laws/Driver.lean ====
section
/-! SUPPORT. What one pass of the host's loop can do, said once, and the loop by its first pass. -/

namespace Sys2Proof.Machine

variable (limit : CycleLimit) (passes n : Nat) (s t : State) (r : Report)

@[simp] theorem limitReached_none : limitReached none n = false := rfl

@[simp] theorem limitReached_some (l : Nat) : limitReached (some l) n = true ↔ l ≤ n := by simp [limitReached]

/-- A pass goes on exactly after a step that answers ok, of a block that is not halted, below the limit. -/
theorem loopPass_executed :
    loopPass limit n s = .executed t ↔
      isHalted s = false ∧ limitReached limit n = false ∧ step s = .next t ∧ t.response.isError = false := by
  unfold loopPass
  cases isHalted s <;> cases limitReached limit n <;> cases step s <;> simp
  next u =>
    by_cases hu : u.response.isError = true
    · simp only [hu, if_true, reduceCtorEq, false_iff, not_and]
      rintro rfl
      simp [hu]
    · simp only [hu, Bool.false_eq_true, if_false, Pass.executed.injEq, iff_self_and]
      rintro rfl
      simpa using hu

/-- The four ways a pass ends the run. -/
theorem loopPass_ended (h : loopPass limit n s = .ended r t) :
    (isHalted s = true ∧ r = .halted n ∧ t = s) ∨
    (isHalted s = false ∧ limitReached limit n = true ∧ r = .cycleLimit n ∧ t = s) ∨
    (isHalted s = false ∧ step s = .next t ∧ t.response.isError = true ∧ r = .interrupted n t.response) ∨
    ((∀ u, step s ≠ .next u) ∧ r = .stuck n ∧ t = s) := by
  unfold loopPass at h
  split at h
  next hh => cases h; exact .inl ⟨hh, rfl, rfl⟩
  next hh =>
    have hh : isHalted s = false := by simpa using hh
    split at h
    next hl => cases h; exact .inr (.inl ⟨hh, hl, rfl, rfl⟩)
    next =>
      split at h
      next u hs =>
        split at h
        next he => cases h; exact .inr (.inr (.inl ⟨hh, hs, he, rfl⟩))
        next => cases h
      next f hs => cases h; exact .inr (.inr (.inr ⟨by simp [hs], rfl, rfl⟩))
      next f hs => cases h; exact .inr (.inr (.inr ⟨by simp [hs], rfl, rfl⟩))

@[simp] theorem hostLoop_zero : hostLoop limit 0 n s = ⟨none, s, []⟩ := rfl

theorem hostLoop_ended (h : loopPass limit n s = .ended r t) :
    hostLoop limit (passes + 1) n s = ⟨some r, t, []⟩ := by
  simp [hostLoop, h]

theorem hostLoop_executed (h : loopPass limit n s = .executed t) :
    hostLoop limit (passes + 1) n s =
      { hostLoop limit passes (n + 1) t with trace := snapshot t :: (hostLoop limit passes (n + 1) t).trace } := by
  simp [hostLoop, h]

/-- A state that every pass of an unlimited loop leaves as it is never ends the run. -/
theorem hostLoop_none_of_fixed (h : ∀ n, loopPass none n s = .executed s) :
    (hostLoop none passes n s).report = none := by
  induction passes generalizing n with
  | zero => rfl
  | succ passes ih => rw [hostLoop_executed _ _ _ _ _ (h n)]; exact ih (n + 1)

end Sys2Proof.Machine
end

