-- ==== Sys2Proof/Laws/Memory.lean ====
section
/-! SUPPORT. Memory: read after write, and that every memory operation keeps the canonical form. -/

namespace Sys2Proof.Machine

variable (m : Memory) (a b : Nat) (v : Byte)

@[simp] theorem Memory.read_nil : Memory.read [] a = Config.resetCell := rfl

theorem Memory.read_cons (c : Host.Cell) : Memory.read (c :: m) a = if c.1 = a then c.2 else m.read a := rfl

@[simp] theorem Memory.read_erase_same : (m.erase a).read a = Config.resetCell := by
  induction m with
  | nil => rfl
  | cons c m ih => simp only [Memory.erase]; split <;> simp_all [Memory.read_cons]

theorem Memory.read_erase_other (h : b ≠ a) : (m.erase a).read b = m.read b := by
  induction m with
  | nil => rfl
  | cons c m ih =>
    simp only [Memory.erase]
    split
    next hk => simp [Memory.read_cons, ih, hk, h.symm]
    next => simp [Memory.read_cons, ih]

/-- An entry that is the only one at its address is read back. -/
theorem Memory.read_insert_same (h : ∀ c ∈ m, c.1 ≠ a) : (m.insert a v).read a = v := by
  induction m with
  | nil => simp [Memory.insert, Memory.read_cons]
  | cons c m ih =>
    have hc : c.1 ≠ a := h c (by simp)
    simp only [Memory.insert]
    split
    · simp [Memory.read_cons]
    · simp [Memory.read_cons, hc, ih fun d hd => h d (by simp [hd])]

theorem Memory.read_insert_other (h : b ≠ a) : (m.insert a v).read b = m.read b := by
  induction m with
  | nil => simp [Memory.insert, Memory.read_cons, h.symm]
  | cons c m ih => simp only [Memory.insert]; split <;> simp_all [Memory.read_cons, h.symm]

theorem Memory.mem_erase {c : Host.Cell} : c ∈ m.erase a ↔ c ∈ m ∧ c.1 ≠ a := by
  induction m with
  | nil => simp [Memory.erase]
  | cons d m ih =>
    simp only [Memory.erase]
    split
    next hk => rw [ih]; constructor <;> rintro ⟨h, hne⟩ <;> aesop
    next hk => rw [List.mem_cons, ih]; aesop

theorem Memory.mem_insert {c : Host.Cell} : c ∈ m.insert a v ↔ c = (a, v) ∨ c ∈ m := by
  induction m with
  | nil => simp [Memory.insert]
  | cons d m ih =>
    simp only [Memory.insert]
    split
    · simp
    · rw [List.mem_cons, ih, List.mem_cons]; tauto

/-- Read after write at the same address, whatever the memory. -/
@[simp] theorem Memory.read_write_same : (m.write a v).read a = v := by
  unfold Memory.write
  split
  next h => simp [h]
  next => exact Memory.read_insert_same _ _ _ fun c hc => ((Memory.mem_erase m a).1 hc).2

/-- A write leaves every other address alone. -/
theorem Memory.read_write_other (h : b ≠ a) : (m.write a v).read b = m.read b := by
  unfold Memory.write
  split
  · exact Memory.read_erase_other m a b h
  · rw [Memory.read_insert_other _ _ _ _ h, Memory.read_erase_other m a b h]

/-- Both at once. -/
theorem Memory.read_write : (m.write a v).read b = if a = b then v else m.read b := by
  split
  next h => simp [h]
  next h => exact Memory.read_write_other m a b v (Ne.symm h)

theorem Memory.wf_nil : Memory.wf [] := by simp [Memory.wf]

theorem Memory.erase_sublist : (m.erase a).Sublist m := by
  induction m with
  | nil => exact List.Sublist.refl _
  | cons c m ih =>
    simp only [Memory.erase]
    split
    · exact ih.cons c
    · exact ih.cons_cons c

theorem Memory.wf_erase (h : m.wf) : (m.erase a).wf :=
  ⟨h.1.sublist (Memory.erase_sublist m a), fun c hc => h.2 c ((Memory.mem_erase m a).1 hc).1⟩

/-- Inserting at a cell of the memory that has no entry keeps the form. -/
theorem Memory.wf_insert (h : m.wf) (hne : ∀ c ∈ m, c.1 ≠ a) (ha : a < Config.memCells)
    (hv : v ≠ Config.resetCell) : (m.insert a v).wf := by
  refine ⟨?_, fun c hc => ?_⟩
  · obtain ⟨hs, -⟩ := h
    induction m with
    | nil => simp [Memory.insert]
    | cons d m ih =>
      rw [List.pairwise_cons] at hs
      have hd : d.1 ≠ a := hne d (by simp)
      simp only [Memory.insert]
      split
      next hlt =>
        refine List.pairwise_cons.2 ⟨fun e he => ?_, List.pairwise_cons.2 hs⟩
        rcases List.mem_cons.1 he with rfl | he
        · exact hlt
        · exact lt_trans hlt (hs.1 e he)
      next hge =>
        refine List.pairwise_cons.2 ⟨fun e he => ?_, ih (fun c hc => hne c (by simp [hc])) hs.2⟩
        rcases (Memory.mem_insert m a v).1 he with rfl | he
        · show d.1 < a
          omega
        · exact hs.1 e he
  · rcases (Memory.mem_insert m a v).1 hc with rfl | hc
    · exact ⟨ha, hv⟩
    · exact h.2 c hc

/-- Every write to a cell of the memory keeps the form. -/
theorem Memory.wf_write (h : m.wf) (ha : a < Config.memCells) : (m.write a v).wf := by
  unfold Memory.write
  split
  · exact Memory.wf_erase m a h
  next hv =>
    exact Memory.wf_insert _ a v (Memory.wf_erase m a h) (fun c hc => ((Memory.mem_erase m a).1 hc).2) ha hv

end Sys2Proof.Machine
end

