-- ==== Sys2Proof/Laws/State.lean ====
section
/-! SUPPORT. One lemma per field per update: what each named operation does to each field of State. -/

namespace Sys2Proof.Machine

variable (s : State)

@[simp] theorem memWrite_mem (a : Nibble) (v : Byte) : (memWrite a v s).mem = s.mem.write a.toNat v := rfl
@[simp] theorem memWrite_pc (a : Nibble) (v : Byte) : (memWrite a v s).pc = s.pc := rfl
@[simp] theorem memWrite_acc (a : Nibble) (v : Byte) : (memWrite a v s).acc = s.acc := rfl
@[simp] theorem memWrite_run (a : Nibble) (v : Byte) : (memWrite a v s).run = s.run := rfl
@[simp] theorem memWrite_response (a : Nibble) (v : Byte) : (memWrite a v s).response = s.response := rfl

@[simp] theorem accFromAlu_mem (op : AluOp) (m : Byte) : (accFromAlu op m s).mem = s.mem := rfl
@[simp] theorem accFromAlu_pc (op : AluOp) (m : Byte) : (accFromAlu op m s).pc = s.pc := rfl
@[simp] theorem accFromAlu_acc (op : AluOp) (m : Byte) : (accFromAlu op m s).acc = alu op s.acc m := rfl
@[simp] theorem accFromAlu_run (op : AluOp) (m : Byte) : (accFromAlu op m s).run = s.run := rfl
@[simp] theorem accFromAlu_response (op : AluOp) (m : Byte) : (accFromAlu op m s).response = s.response := rfl

@[simp] theorem selectPc_mem (sel : PcSel) : (selectPc sel s).mem = s.mem := rfl
@[simp] theorem selectPc_pc (sel : PcSel) : (selectPc sel s).pc = pcMux sel s.pc := rfl
@[simp] theorem selectPc_acc (sel : PcSel) : (selectPc sel s).acc = s.acc := rfl
@[simp] theorem selectPc_run (sel : PcSel) : (selectPc sel s).run = s.run := rfl
@[simp] theorem selectPc_response (sel : PcSel) : (selectPc sel s).response = s.response := rfl

@[simp] theorem setRun_mem (r : RunState) : (setRun r s).mem = s.mem := rfl
@[simp] theorem setRun_pc (r : RunState) : (setRun r s).pc = s.pc := rfl
@[simp] theorem setRun_acc (r : RunState) : (setRun r s).acc = s.acc := rfl
@[simp] theorem setRun_run (r : RunState) : (setRun r s).run = r := rfl
@[simp] theorem setRun_response (r : RunState) : (setRun r s).response = s.response := rfl

@[simp] theorem respond_mem (e : Response) : (respond e s).mem = s.mem := rfl
@[simp] theorem respond_pc (e : Response) : (respond e s).pc = s.pc := rfl
@[simp] theorem respond_acc (e : Response) : (respond e s).acc = s.acc := rfl
@[simp] theorem respond_run (e : Response) : (respond e s).run = s.run := rfl
@[simp] theorem respond_response (e : Response) : (respond e s).response = e := rfl

@[simp] theorem afterFetch_mem : (afterFetch s).mem = s.mem := rfl
@[simp] theorem afterFetch_pc : (afterFetch s).pc = s.pc + 1 := rfl
@[simp] theorem afterFetch_acc : (afterFetch s).acc = s.acc := rfl
@[simp] theorem afterFetch_run : (afterFetch s).run = s.run := rfl
@[simp] theorem afterFetch_response : (afterFetch s).response = s.response := rfl

@[simp] theorem halted_eq_true : s.halted = true ↔ s.run = .halted := by simp [State.halted]

@[simp] theorem halted_eq_false : s.halted = false ↔ s.run ≠ .halted := by simp [State.halted]

end Sys2Proof.Machine
end

