-- ==== Sys2Proof/Laws/Ops.lean ====
section
/-! SUPPORT. What each shared operation can do, said once. -/

namespace Sys2Proof.Machine

variable (s t : State)

theorem complete_next : complete s = .next t ↔ t = respond .ok s := by
  simp [complete, eq_comm]

theorem reject_next (e : Response) : reject e s = .next t ↔ t = respond e s := by
  simp [reject, eq_comm]

theorem raiseFault_next (r : FaultReason) (e : Response) :
    raiseFault r e s = .next t ↔ t = respond e (setRun (.faulted r) s) := by
  simp [raiseFault, eq_comm]

theorem raiseIllegal_next (op : Nibble) :
    raiseIllegal op s = .next t ↔ t = respond (.illegalOpcode op) (setRun (.faulted .illegalOpcode) s) :=
  raiseFault_next s t _ _

/-- A core read after a core write. -/
theorem memRead_memWrite (a b : Nibble) (v : Byte) :
    memRead b (memWrite a v s) = if a = b then v else memRead b s := by
  simp only [memRead, memWrite_mem, Memory.read_write, BitVec.toNat_inj]

/-- A core address is a cell of the memory (20_memory.md R40). -/
theorem nibble_lt (a : Nibble) : a.toNat < Config.memCells := a.isLt

theorem memWrite_wf (a : Nibble) (v : Byte) (h : s.mem.wf) : (memWrite a v s).mem.wf :=
  Memory.wf_write _ _ _ h (nibble_lt a)

theorem zext5_toNat (d : Nibble) : (zext5 d).toNat = d.toNat := by
  simp only [zext5, BitVec.toNat_setWidth]
  have := d.isLt
  omega

theorem pcMux_inc_toNat (pc : PcWord) (h : pc.toNat < Config.memCells) :
    (pcMux .inc pc).toNat = pc.toNat + 1 := by
  simp only [pcMux, BitVec.toNat_add]
  simp only [Config.memCells] at h
  simp
  omega

theorem fetchAddr_toNat (h : s.pc.toNat < Config.memCells) : (fetchAddr s).toNat = s.pc.toNat := by
  simp only [fetchAddr, BitVec.toNat_setWidth]
  exact Nat.mod_eq_of_lt h

/-- The fetched byte is the cell at `pc`. -/
theorem fetchByte_eq (h : s.pc.toNat < Config.memCells) : fetchByte s = s.mem.read s.pc.toNat := by
  simp only [fetchByte, memRead, fetchAddr_toNat s h]

theorem alu_add_toNat (a m : Byte) : (alu .add a m).toNat = (a.toNat + m.toNat) % 256 := by
  simp [alu]

theorem alu_sub_toNat (a m : Byte) : (alu .sub a m).toNat = (a.toNat + 256 - m.toNat) % 256 := by
  simp only [alu, BitVec.toNat_sub]
  have := a.isLt
  have := m.isLt
  omega

theorem aluZero_iff (a : Byte) : aluZero a = true ↔ a = 0 := by simp [aluZero]

end Sys2Proof.Machine
end

