-- ==== Sys2Proof/Laws/PerInstr.lean ====
section
/-! SUPPORT. Statements about every instruction as syntax, one lemma per constructor. The family EncodingFields: the
byte of an instruction holds its opcode in bits 7 to 4 and its data field in bits 3 to 0 (30_encoding.md R48). -/

namespace Sys2Proof.Laws.EncodingFields

def Statement (i : Instr) : Prop := opcodeField (encode i) = i.opcode ∧ dataField (encode i) = i.data

theorem hlt (d : Nibble) : Statement (.hlt d) := ⟨opcodeField_append _ _, dataField_append _ _⟩
theorem lda (d : Nibble) : Statement (.lda d) := ⟨opcodeField_append _ _, dataField_append _ _⟩
theorem ldi (d : Nibble) : Statement (.ldi d) := ⟨opcodeField_append _ _, dataField_append _ _⟩
theorem sta (d : Nibble) : Statement (.sta d) := ⟨opcodeField_append _ _, dataField_append _ _⟩
theorem sti (d : Nibble) : Statement (.sti d) := ⟨opcodeField_append _ _, dataField_append _ _⟩
theorem add (d : Nibble) : Statement (.add d) := ⟨opcodeField_append _ _, dataField_append _ _⟩
theorem sub (d : Nibble) : Statement (.sub d) := ⟨opcodeField_append _ _, dataField_append _ _⟩
theorem jmp (d : Nibble) : Statement (.jmp d) := ⟨opcodeField_append _ _, dataField_append _ _⟩
theorem jmz (d : Nibble) : Statement (.jmz d) := ⟨opcodeField_append _ _, dataField_append _ _⟩
theorem reserved9 (d : Nibble) : Statement (.reserved9 d) := ⟨opcodeField_append _ _, dataField_append _ _⟩
theorem reserved10 (d : Nibble) : Statement (.reserved10 d) := ⟨opcodeField_append _ _, dataField_append _ _⟩
theorem reserved11 (d : Nibble) : Statement (.reserved11 d) := ⟨opcodeField_append _ _, dataField_append _ _⟩
theorem reserved12 (d : Nibble) : Statement (.reserved12 d) := ⟨opcodeField_append _ _, dataField_append _ _⟩
theorem reserved13 (d : Nibble) : Statement (.reserved13 d) := ⟨opcodeField_append _ _, dataField_append _ _⟩
theorem reserved14 (d : Nibble) : Statement (.reserved14 d) := ⟨opcodeField_append _ _, dataField_append _ _⟩
theorem reserved15 (d : Nibble) : Statement (.reserved15 d) := ⟨opcodeField_append _ _, dataField_append _ _⟩

end Sys2Proof.Laws.EncodingFields
end

