-- ==== Sys2Proof/Tests/Slice0.lean ====
section
/-! SUPPORT. The model's own tests. Expected results are those of 95_test_vectors.md (the vector's name stands in the
test's comment), of the encodings of spec/opcode_table.json, or of the rule named; then, for each statement with
hypotheses, a witness that something meets them. -/

namespace Sys2Proof.Tests

open Sys2Proof.Machine

/-! ## WellFormed refuses each reserved opcode and accepts the legal ones at the ends of the data field -/

theorem test_wellFormed_refuses_reserved9 : (Instr.reserved9 0).wellFormed = false := by decide
theorem test_wellFormed_refuses_reserved10 : (Instr.reserved10 5).wellFormed = false := by decide
theorem test_wellFormed_refuses_reserved11 : (Instr.reserved11 1).wellFormed = false := by decide
theorem test_wellFormed_refuses_reserved12 : (Instr.reserved12 2).wellFormed = false := by decide
theorem test_wellFormed_refuses_reserved13 : (Instr.reserved13 3).wellFormed = false := by decide
theorem test_wellFormed_refuses_reserved14 : (Instr.reserved14 4).wellFormed = false := by decide
theorem test_wellFormed_refuses_reserved15 : (Instr.reserved15 15).wellFormed = false := by decide
theorem test_wellFormed_accepts_legal : (Instr.hlt 15).wellFormed = true ∧ (Instr.jmz 15).wellFormed = true := by decide
/-- R58, R59: an operand above 15 and a byte above 255 are refused. -/
theorem test_asm_wellFormed_refuses :
    (AsmItem.instr .lda 16).wellFormed = false ∧ (AsmItem.byte 256).wellFormed = false := by decide

/-! ## Decoding, each constructor by a word written out from its encoding -/

theorem test_decode_hlt : decode 0b00001111#8 = .hlt 15 := by decide
theorem test_decode_lda : decode 0b00010000#8 = .lda 0 := by decide
theorem test_decode_ldi : decode 0b00101100#8 = .ldi 12 := by decide
theorem test_decode_sta : decode 0b00111111#8 = .sta 15 := by decide
theorem test_decode_sti : decode 0b01001110#8 = .sti 14 := by decide
theorem test_decode_add : decode 0b01010001#8 = .add 1 := by decide
theorem test_decode_sub : decode 0b01101101#8 = .sub 13 := by decide
theorem test_decode_jmp : decode 0b01110000#8 = .jmp 0 := by decide
theorem test_decode_jmz : decode 0b10001111#8 = .jmz 15 := by decide
theorem test_decode_reserved9 : decode 0b10010000#8 = .reserved9 0 := by decide
theorem test_decode_reserved10 : decode 0b10100101#8 = .reserved10 5 := by decide
theorem test_decode_reserved11 : decode 0b10111000#8 = .reserved11 8 := by decide
theorem test_decode_reserved12 : decode 0b11000001#8 = .reserved12 1 := by decide
theorem test_decode_reserved13 : decode 0b11010010#8 = .reserved13 2 := by decide
theorem test_decode_reserved14 : decode 0b11100100#8 = .reserved14 4 := by decide
theorem test_decode_reserved15 : decode 0b11111111#8 = .reserved15 15 := by decide
theorem test_decodeBytes_empty : decodeBytes [] = .error .noByte := rfl
theorem test_decodeTableWord : decodeTableWord 8 0x2C = some (.ldi 12) ∧ decodeTableWord 16 0x2C = none := by decide

/-! ## One step of each instruction -/

/-- A Running block. -/
def running (pc : PcWord) (acc : Byte) (mem : Memory) : State := ⟨mem, pc, acc, .running, .ok⟩

/-- The step answers a next state in which the check holds. -/
def steps (s : State) (check : State → Bool) : Bool :=
  match step s with
  | .next t => check t
  | .fault _ => false
  | .refused _ => false

/-- H2. -/
theorem test_hlt : steps (running 3 0x2A [(3, 0x07)]) (fun t => t.run == .halted && t.pc == 4 && t.acc == 0x2A) = true := by decide
/-- H3: at 15 the pc becomes 16. -/
theorem test_hlt_at_15 : steps (running 15 0 [(15, 0x0F)]) (fun t => t.run == .halted && t.pc == 16) = true := by decide
/-- L1. -/
theorem test_lda : steps (running 0 0xFF [(0, 0x1D), (13, 0x07)]) (fun t => t.acc == 0x07 && t.pc == 1) = true := by decide
/-- L2: its own byte. -/
theorem test_lda_own_byte : steps (running 4 0x33 [(4, 0x14)]) (fun t => t.acc == 0x14 && t.pc == 5) = true := by decide
/-- L4: the pointer's high nibble is ignored. -/
theorem test_ldi : steps (running 0 0 [(0, 0x2C), (12, 0xAD), (13, 0x42)]) (fun t => t.acc == 0x42 && t.pc == 1) = true := by decide
/-- L6: the pointer points at itself. -/
theorem test_ldi_self_pointer : steps (running 0 0 [(0, 0x25), (5, 0xF5)]) (fun t => t.acc == 0xF5) = true := by decide
/-- S1. -/
theorem test_sta : steps (running 2 0x0C [(2, 0x3F)]) (fun t => t.mem == [(2, 0x3F), (15, 0x0C)] && t.pc == 3) = true := by decide
/-- S2: its own cell, with the value an unlisted cell reads as. -/
theorem test_sta_own_cell_zero : steps (running 5 0 [(5, 0x35)]) (fun t => t.mem == [] && t.pc == 6) = true := by decide
/-- S4. -/
theorem test_sti : steps (running 2 0 [(2, 0x4E), (3, 0x7F), (14, 0xF3)]) (fun t => t.mem == [(2, 0x4E), (14, 0xF3)]) = true := by decide
/-- S5: the pointer cell itself is overwritten. -/
theorem test_sti_overwrites_pointer : steps (running 0 0x77 [(0, 0x49), (9, 0x09)]) (fun t => t.mem == [(0, 0x49), (9, 0x77)]) = true := by decide
/-- A3: the carry is discarded. -/
theorem test_add_wraps : steps (running 1 0xFF [(1, 0x5E), (14, 0xFF)]) (fun t => t.acc == 0xFE && t.pc == 2) = true := by decide
/-- A6: the operand is its own byte. -/
theorem test_add_own_byte : steps (running 3 0x01 [(3, 0x53)]) (fun t => t.acc == 0x54) = true := by decide
/-- B3: the borrow is discarded, and the operands are not swapped. -/
theorem test_sub_wraps : steps (running 2 0x00 [(2, 0x6F), (15, 0xFF)]) (fun t => t.acc == 0x01 && t.pc == 3) = true := by decide
/-- B4. -/
theorem test_sub_sign_change : steps (running 2 0x80 [(2, 0x6F), (15, 0x01)]) (fun t => t.acc == 0x7F) = true := by decide
/-- J1. -/
theorem test_jmp : steps (running 4 0x09 [(4, 0x71)]) (fun t => t.pc == 1 && t.acc == 0x09) = true := by decide
/-- J3: the intermediate 16 is overwritten. -/
theorem test_jmp_at_15 : steps (running 15 0 [(15, 0x73)]) (fun t => t.pc == 3) = true := by decide
/-- J6: no value is read as signed. -/
theorem test_jmz_not_taken : steps (running 1 0x80 [(1, 0x86)]) (fun t => t.pc == 2) = true := by decide
/-- J8. -/
theorem test_jmz_taken_at_15 : steps (running 15 0 [(15, 0x82)]) (fun t => t.pc == 2) = true := by decide

/-- The illegal-opcode fault at the fetched address plus one (R55). -/
def illegalAt (op : Nibble) (pc : PcWord) (t : State) : Bool :=
  t.run == .faulted .illegalOpcode && t.response == .illegalOpcode op && t.pc == pc && !t.halted

/-- F1. -/
theorem test_reserved9 : steps (running 0 0 [(0, 0x9A)]) (illegalAt 9 1) = true := by decide
theorem test_reserved10 : steps (running 0 0 [(0, 0xA5)]) (illegalAt 10 1) = true := by decide
theorem test_reserved11 : steps (running 0 0 [(0, 0xB0)]) (illegalAt 11 1) = true := by decide
theorem test_reserved12 : steps (running 0 0 [(0, 0xC0)]) (illegalAt 12 1) = true := by decide
theorem test_reserved13 : steps (running 0 0 [(0, 0xD0)]) (illegalAt 13 1) = true := by decide
theorem test_reserved14 : steps (running 0 0 [(0, 0xE0)]) (illegalAt 14 1) = true := by decide
/-- F2. -/
theorem test_reserved15_at_15 : steps (running 15 0x11 [(15, 0xFF)]) (fun t => illegalAt 15 16 t && t.acc == 0x11) = true := by decide
/-- H4: AlreadyHalted, not OutOfRange. -/
theorem test_halted_at_16 : steps { running 16 0 [] with run := .halted } (fun t => t.response == .alreadyHalted && t.run == .halted) = true := by decide
/-- F3 and F5. -/
theorem test_faulted_step :
    steps { running 16 0 [] with run := .faulted .outOfRange } (fun t => t.response == .alreadyFaulted .outOfRange) = true ∧
    steps { running 1 0 [] with run := .faulted .illegalOpcode } (fun t => t.response == .alreadyFaulted .illegalOpcode) = true := by
  decide
/-- F4. -/
theorem test_fetch_at_16 : steps (running 16 7 [(0, 0x70)]) (fun t =>
    t.run == .faulted .outOfRange && t.response == .outOfRange 16 && t.pc == 16 && t.acc == 7) = true := by decide
/-- The host's probe runs the placed word first after reset. -/
theorem test_withFetchWord : steps (State.reset.withFetchWord 8 0x7C) (fun t => t.pc == 12) = true := by decide

/-! ## The host -/

/-- M1, M2, M3 and M4: the address is checked before the value. -/
theorem test_writeMemory :
    (writeMemory 0 255 State.reset).1.mem = [(0, 0xFF)] ∧ (writeMemory 16 5 State.reset).2 = .outOfRange 16 ∧
    (writeMemory 20 300 State.reset).2 = .outOfRange 20 ∧ (writeMemory 2 256 State.reset).2 = .invalidValue 256 := by decide
/-- M5 and M6. -/
theorem test_readMemory :
    readMemory 15 (running 0 0 [(15, 0x3C)]) = .okRead 0x3C ∧ readMemory (-3) State.reset = .outOfRange (-3) := by decide
/-- E4: the write before the bad token stays made. -/
theorem test_load_parse_error :
    (hostLoad [some 0x12, none, some 0x34] State.reset).2 = .parseError 1 ∧
    (hostLoad [some 0x12, none, some 0x34] State.reset).1.mem = [(0, 0x12)] := by decide
/-- E1: with no limit the self-loop is still running, with the load and each executed step traced. -/
theorem test_run_unlimited : (hostRun [some 0x70] 4).report = none ∧ (hostRun [some 0x70] 4).trace.length = 5 := by decide
/-- R98: a load failure ends the run and no step runs. -/
theorem test_run_load_failure : (hostRun [none] 4).report = some (.loadFailed (.parseError 0)) := by decide
/-- P7: "Interrupted after 0 cycles". -/
theorem test_run_interrupted : (hostRun [some 0x9A] 5).report = some (.interrupted 0 (.illegalOpcode 9)) := by decide
/-- R58 and R59: a comment, decimal and hexadecimal operands, HLT without one, a raw byte. -/
theorem test_parse_lines :
    parseLines [['L', 'D', 'A', ' ', '1', '3', ' ', ';', 'x'], ['A', 'D', 'D', ' ', '0', 'x', 'E'], ['H', 'L', 'T'],
      [';'], ['.', 'b', 'y', 't', 'e', ' ', '0', 'x', 'A', 'D']] =
    .ok [.instr .lda 13, .instr .add 14, .instr .hlt 0, .byte 0xAD] := by rfl
theorem test_parse_refuses :
    parseLine ['L', 'D', 'A', ' ', '1', '6'] = .error .tooLarge ∧ parseLine ['L', 'D', 'A'] = .error .badLine := ⟨rfl, rfl⟩

/-! ## Laws stated in State's terms -/

theorem reset_mem_wf : State.reset.mem.wf := by decide

/-! ## Witnesses: the hypotheses of each statement can be met, at the ends of their ranges -/

theorem witness_ResetIsCreationState : 0 < 16 ∧ 15 < 16 := by decide
/-- Both sides of the legal range, the last opcode and data value, the last HLT byte. -/
theorem witness_LegalBytesAreOpcodesZeroToEight :
    (0x8F#8).toNat ≤ 0x8F ∧ ¬ (0x90#8).toNat ≤ 0x8F ∧ (8 ≤ 8 ∧ 15 ≤ 15) ∧ (0x0F#8).toNat ≤ 0x0F := by decide
theorem witness_ReservedOpcodesFault :
    0x90 ≤ (0x90#8).toNat ∧ 0x90 ≤ (0xFF#8).toNat ∧
    Instr.reserved15 3 ∈ [Instr.reserved9 3, .reserved10 3, .reserved11 3, .reserved12 3, .reserved13 3, .reserved14 3,
      .reserved15 3] := by decide
theorem witness_StepRunsDecodedInstruction :
    (running 15 1 [(15, 0x3E)]).fetches ∧ decode (running 15 1 [(15, 0x3E)]).byteAtPc = .sta 14 ∧
    (running 0 0 []).fetches ∧ decode (running 0 0 []).byteAtPc = .hlt 0 := by decide
theorem witness_StepRunsPlacedWord : (running 15 1 [(15, 0x3E)]).fetches := by decide
theorem witness_HaltedStepIsRejected : ({ running 16 0 [] with run := .halted } : State).run = .halted := by decide
theorem witness_FaultedStepIsRejected :
    ({ running 16 0 [] with run := .faulted .outOfRange } : State).run = .faulted .outOfRange ∧
    ({ running 1 0 [] with run := .faulted .illegalOpcode } : State).run = .faulted .illegalOpcode := by decide
theorem witness_FetchPastEndFaults : (running 16 0 []).run = .running ∧ (running 16 0 []).pc = 16 := by decide
/-- Both ends of the unreachable values. -/
theorem witness_StepStopsOnlyAtUnreachablePc :
    (running 17 0 []).run = .running ∧ 17 ≤ (running 17 0 []).pc.toNat ∧ 17 ≤ (running 31 0 []).pc.toNat := by decide
theorem witness_EveryInstructionCompletes : State.reset.unfaulted := by simp [State.unfaulted, State.reset]
/-- One state for each branch, opcodes 8 and 9 at their border. -/
theorem witness_StepReportsFirstFailingCheck :
    ({ running 16 0 [] with run := .halted } : State).pc.toNat ≤ 16 ∧
    ({ running 16 0 [] with run := .faulted .outOfRange } : State).pc.toNat ≤ 16 ∧
    ({ running 1 0 [] with run := .faulted .illegalOpcode } : State).pc.toNat ≤ 16 ∧
    (running 16 0 []).pc.toNat ≤ 16 ∧
    ((running 15 0 [(15, 0x90)]).pc.toNat ≤ 16 ∧ 9 ≤ (running 15 0 [(15, 0x90)]).byteAtPc.toNat / 16) ∧
    ((running 0 0 [(0, 0x8F)]).pc.toNat ≤ 16 ∧ ¬ 9 ≤ (running 0 0 [(0, 0x8F)]).byteAtPc.toNat / 16) := by decide
theorem witness_RunStateFollowsTable :
    (running 16 0 []).pc.toNat ≤ 16 ∧ (running 16 0 []).run = .running ∧ (running 16 0 []).pc = 16 ∧
    (running 15 0 [(15, 0x8F)]).pc.toNat ≤ 15 ∧ (running 15 0 [(15, 0x90)]).pc.toNat ≤ 15 ∧
    ({ running 16 0 [] with run := .halted } : State).run ≠ .running := by decide
/-- J7 and J8, a JMZ not taken and taken at 15; J3, a JMP at 15; and a step that does not fetch. -/
theorem witness_PcIsIncrementedOrJumpTarget :
    (running 15 1 [(15, 0x82)]).fetches ∧ (running 15 1 [(15, 0x82)]).pc.toNat ≤ 16 ∧
    ¬ ((running 15 1 [(15, 0x82)]).byteAtPc.toNat / 16 = 7 ∨
      ((running 15 1 [(15, 0x82)]).byteAtPc.toNat / 16 = 8 ∧ (running 15 1 [(15, 0x82)]).acc = 0)) ∧
    ((running 15 0 [(15, 0x82)]).byteAtPc.toNat / 16 = 8 ∧ (running 15 0 [(15, 0x82)]).acc = 0) ∧
    ((running 15 1 [(15, 0x73)]).fetches ∧ (running 15 1 [(15, 0x73)]).byteAtPc.toNat / 16 = 7) ∧
    ¬ (running 16 0 []).fetches := by decide
/-- One step for each of the three ways to fail. -/
theorem witness_FailedStepIsPrecise :
    (∃ t, step { running 16 0 [] with run := .halted } = .next t ∧ t.response ≠ .ok) ∧
    (∃ t, step (running 16 0 []) = .next t ∧ t.response ≠ .ok) ∧
    (∃ t, step (running 15 0 [(15, 0xFF)]) = .next t ∧ t.response ≠ .ok) :=
  ⟨⟨_, rfl, by decide⟩, ⟨_, rfl, by decide⟩, ⟨_, rfl, by decide⟩⟩
theorem witness_SelfJumpLoopsForever :
    (running 15 0 [(15, 0x7F)]).fetches ∧
    decode (running 15 0 [(15, 0x7F)]).byteAtPc = .jmp (BitVec.ofNat 4 (running 15 0 [(15, 0x7F)]).pc.toNat) := by decide
/-- S3 and S4, and a store at 14 to the last cell: both forms, at the cell of the new `pc`. -/
theorem witness_StoreIsSeenByNextFetch :
    ((running 14 5 [(14, 0x3F)]).fetches ∧ decode (running 14 5 [(14, 0x3F)]).byteAtPc = .sta 15 ∧
      (15 : Nibble).toNat = (running 14 5 [(14, 0x3F)]).pc.toNat + 1) ∧
    ((running 2 0 [(2, 0x4E), (14, 0xF3)]).fetches ∧ decode (running 2 0 [(2, 0x4E), (14, 0xF3)]).byteAtPc = .sti 14 ∧
      (3 : Nibble).toNat = ((running 2 0 [(2, 0x4E), (14, 0xF3)]).mem.read (14 : Nibble).toNat).toNat % 16 ∧
      (3 : Nibble).toNat = (running 2 0 [(2, 0x4E), (14, 0xF3)]).pc.toNat + 1) := by decide
/-- The invariant is met in each run state, at the last `pc`. -/
theorem witness_StepKeepsBlockInvariant :
    (running 15 1 [(0, 0x10), (15, 0x3E)]).Inv ∧ (running 16 0 []).Inv ∧
    ({ running 1 0 [] with run := .halted } : State).Inv ∧
    ({ running 1 0 [] with run := .faulted .illegalOpcode } : State).Inv ∧
    ({ running 16 0 [] with run := .faulted .outOfRange } : State).Inv := by decide
theorem witness_EveryTransactionKeepsBlockInvariant :
    ({ running 16 3 [(0, 0x10), (15, 0x3E)] with run := .halted } : State).Inv := by decide
/-- A host write to the last cell, STA and STI. -/
theorem witness_OnlyStoresAndHostWriteMemory :
    (∃ t, transact (.writeMemory 15 255) State.reset = .next t ∧ t.mem.read 15 ≠ State.reset.mem.read 15) ∧
    (∃ t, transact .step (running 0 9 [(0, 0x3F)]) = .next t ∧ t.mem.read 15 ≠ (running 0 9 [(0, 0x3F)]).mem.read 15) ∧
    (∃ t, transact .step (running 0 9 [(0, 0x4F)]) = .next t ∧ t.mem.read 0 ≠ (running 0 9 [(0, 0x4F)]).mem.read 0) :=
  ⟨⟨_, rfl, by decide⟩, ⟨_, rfl, by decide⟩, ⟨_, rfl, by decide⟩⟩
theorem witness_OnlyLoadsAndArithmeticWriteAcc :
    (∃ t, transact .step (running 0 9 [(0, 0x10)]) = .next t ∧ t.acc ≠ (running 0 9 [(0, 0x10)]).acc) ∧
    (∃ t, transact .step (running 0 9 [(0, 0x60)]) = .next t ∧ t.acc ≠ (running 0 9 [(0, 0x60)]).acc) :=
  ⟨⟨_, rfl, by decide⟩, ⟨_, rfl, by decide⟩⟩
theorem witness_HaltedFlagIsSetByHltOnly :
    (∃ t, transact .step (running 15 0 [(15, 0x0F)]) = .next t ∧ (running 15 0 [(15, 0x0F)]).halted = false ∧
      t.halted = true) ∧
    (∃ t, transact (.writeMemory 0 1) { running 16 0 [] with run := .halted } = .next t ∧
      ({ running 16 0 [] with run := .halted } : State).halted = true) :=
  ⟨⟨_, rfl, by decide, by decide⟩, ⟨_, rfl, by decide⟩⟩
theorem witness_HaltedAndFaultedAreTerminal :
    ({ running 16 0 [] with run := .halted } : State).run ≠ .running ∧
    ({ running 1 0 [] with run := .faulted .illegalOpcode } : State).run ≠ .running := by decide
theorem witness_ResponseIsNeverRead : ∃ t, transact (.readMemory 15) State.reset = .next t := ⟨_, rfl⟩
theorem witness_DatapathTableGivesStep :
    (running 16 0 []).pc.toNat ≤ 16 ∧ (running 15 0 [(15, 0x82)]).pc.toNat ≤ 16 := by decide
/-- An STI, whose accesses end in a write, and a step that does not fetch. -/
theorem witness_StepAccessesFollowTable :
    (running 2 0 [(2, 0x4E), (14, 0xF3)]).fetches ∧
    stepAccesses (running 2 0 [(2, 0x4E), (14, 0xF3)]) = [.read 2, .read 14] ++ .write 3 0 :: [] ∧
    (Access.write 3 0).isWrite = true ∧ ¬ (running 16 0 []).fetches := by decide
/-- Two states that differ in a cell STI neither reads nor writes. -/
theorem witness_StepDependsOnlyOnCellsItReads :
    ((running 2 7 [(2, 0x4E), (14, 0xF3)]).pc = (running 2 7 [(2, 0x4E), (5, 1), (14, 0xF3)]).pc ∧
      (running 2 7 [(2, 0x4E), (14, 0xF3)]).acc = (running 2 7 [(2, 0x4E), (5, 1), (14, 0xF3)]).acc ∧
      (running 2 7 [(2, 0x4E), (14, 0xF3)]).run = (running 2 7 [(2, 0x4E), (5, 1), (14, 0xF3)]).run) ∧
    (∀ a : Nibble, .read a ∈ stepAccesses (running 2 7 [(2, 0x4E), (14, 0xF3)]) →
      (running 2 7 [(2, 0x4E), (14, 0xF3)]).mem.read a.toNat = (running 2 7 [(2, 0x4E), (5, 1), (14, 0xF3)]).mem.read a.toNat) ∧
    ∃ t, step (running 2 7 [(2, 0x4E), (14, 0xF3)]) = .next t := ⟨by decide, by decide, _, rfl⟩
theorem witness_CellHoldsLatestWrite : (running 14 7 [(14, 0x3F)]).Inv := by decide
/-- The last cell and the last value, with other transactions between; values one outside each range. -/
theorem witness_HostReadReturnsHostWrite :
    ((0 : Int) ≤ 15 ∧ (15 : Int) ≤ 15 ∧ (0 : Int) ≤ 255 ∧ (255 : Int) ≤ 255) ∧
    (∀ op ∈ [HostOp.readMemory 15, .writeMemory 14 0], op ≠ .step ∧ ∀ v, op ≠ .writeMemory 15 v) ∧
    ¬ ((0 : Int) ≤ 16 ∧ (16 : Int) ≤ 15) ∧ ¬ ((0 : Int) ≤ -1 ∧ (-1 : Int) ≤ 15) ∧
    ¬ ((0 : Int) ≤ 256 ∧ (256 : Int) ≤ 255) := by
  refine ⟨by decide, ?_, by decide, by decide, by decide⟩
  simp
theorem witness_HostReadsChangeNothing :
    HostOp.isHalted ∈ [HostOp.getAccumulator, .getProgramCounter, .isHalted] := by decide
/-- A full image and one token more. -/
theorem witness_LoadFillsCellsInOrder :
    (∀ v ∈ List.replicate 16 255, v ≤ 255) ∧ (List.replicate 16 255).length ≤ 16 ∧
    (∀ v ∈ List.replicate 17 255, v ≤ 255) ∧ 17 ≤ (List.replicate 17 255).length ∧
    (List.replicate 16 255)[15]? = some 255 ∧ (List.replicate 16 255)[16]? = none := by decide
/-- Each report occurs, a limit at 2 and a limit already passed, and an unlimited run that goes on. -/
theorem witness_DriverLoopReportsTruly :
    (hostLoop (some 2) 5 0 (running 0 0 [(0, 0x70)])).report = some (.cycleLimit 2) ∧
    (hostLoop (some 0) 1 3 (running 0 0 [(0, 0x70)])).report = some (.cycleLimit 3) ∧
    (hostLoop none 2 0 State.reset).report = some (.halted 1) ∧
    (hostLoop none 2 0 (running 16 0 [])).report = some (.interrupted 0 (.outOfRange 16)) ∧
    (hostLoop none 3 0 (running 0 0 [(0, 0x70)])).report = none ∧ State.reset.Inv := by decide
/-- E1, I11: a whole run that never ends. -/
theorem witness_RunNeverEnds : RunNeverEnds [some 0x70] none :=
  fun passes => hostLoop_none_of_fixed passes 0 (running 0 0 [(0, 0x70)]) fun _ => rfl
/-- An ended run, a count and passes that just fit a limit, a run of each kind, and a self-jump at each end of memory. -/
theorem witness_LimitedRunsEndAndUnlimitedRunsMayNot :
    (hostLoop none 2 0 State.reset).report ≠ none ∧ (1 : Nat) + 2 ≤ 3 ∧
    (RunEndsIn [some 0x00] none (hostRun [some 0x00] 2) ∧ (hostRun [some 0x00] 2).report = some (.halted 1)) ∧
    RunNeverEnds [some 0x70] none ∧
    (∀ a ∈ [0#4, 15#4], let s := running (a.setWidth 5) 0 [(a.toNat, 0x70 + a.setWidth 8)]
      s.fetches ∧ decode s.byteAtPc = .jmp (BitVec.ofNat 4 s.pc.toNat)) :=
  ⟨by decide, by decide, ⟨⟨by decide, 2, rfl⟩, by decide⟩, witness_RunNeverEnds, by decide⟩
theorem witness_AssembledItemsStandInOrder :
    [AsmItem.instr .jmz 15, .byte 255].length ≤ 16 ∧ ∀ i ∈ [AsmItem.instr .jmz 15, .byte 255], i.wellFormed = true := by decide

end Sys2Proof.Tests
end

section
/-! PROOFS. Decoding, by the two fields of the byte (30_encoding.md R48, R51). -/

namespace Sys2Proof

theorem decode_opcode (b : Byte) : (decode b).opcode = opcodeField b := by
  revert b
  decide

theorem decode_data (b : Byte) : (decode b).data = dataField b := by
  unfold decode
  split <;> rfl

theorem decode_opcode_toNat (b : Byte) : (decode b).opcode.toNat = b.toNat / 16 := by
  rw [decode_opcode, opcodeField_toNat]

theorem decode_data_toNat (b : Byte) : (decode b).data.toNat = b.toNat % 16 := by
  rw [decode_data, dataField_toNat]

end Sys2Proof
end

section
/-! PROOFS. The step by its cases: what each leaves as the next state. A fetched instruction leaves what its row of the
table of 30_encoding.md R57 says, so later proofs read the row and do not unfold the meanings. -/

namespace Sys2Proof.Machine

variable (s t : State)

theorem execJmz_taken (d : Nibble) (h : aluZero s.acc = true) : execJmz d s = complete (selectPc (.jump d) s) :=
  if_pos h

theorem execJmz_notTaken (d : Nibble) (h : ¬ aluZero s.acc = true) : execJmz d s = complete s := if_neg h

/-- An instruction executed after the fetch does what its control row does to the state before the fetch. -/
theorem exec_afterFetch (i : Instr) : exec i (afterFetch s) = .next ((instrControl i s).apply s) := by
  cases i with
  | jmz d =>
    by_cases hz : aluZero s.acc = true
    · simp only [instrControl, if_pos hz]
      exact execJmz_taken (afterFetch s) d hz
    · simp only [instrControl, if_neg hz]
      exact execJmz_notTaken (afterFetch s) d hz
  | hlt | lda | ldi | sta | sti | add | sub | jmp => rfl
  | reserved9 | reserved10 | reserved11 | reserved12 | reserved13 | reserved14 | reserved15 => rfl

theorem step_of_halted (h : s.run = .halted) : step s = .next (respond .alreadyHalted s) := by
  simp only [step, fdeStep, h, reject]

theorem step_of_faulted {r : FaultReason} (h : s.run = .faulted r) :
    step s = .next (respond (.alreadyFaulted r) s) := by
  simp only [step, fdeStep, h, reject]

theorem step_of_running (h : s.run = .running) : step s = fetchDecodeExecute s := by
  simp only [step, fdeStep, h]

theorem step_of_fetches (h : s.fetches) :
    step s = .next ((instrControl (decode s.byteAtPc) s).apply s) := by
  obtain ⟨hrun, hpc⟩ := h
  rw [step_of_running s hrun, fetchDecodeExecute, if_pos hpc, exec_afterFetch, fetchByte_eq s hpc]

theorem step_of_pastEnd (hrun : s.run = .running) (hpc : s.pc.toNat = Config.memCells) :
    step s = .next (respond (.outOfRange 16) (setRun (.faulted .outOfRange) s)) := by
  rw [step_of_running s hrun, fetchDecodeExecute, if_neg (by omega), if_pos hpc, raiseFault]

theorem step_of_unreachablePc (hrun : s.run = .running) (hpc : Config.memCells < s.pc.toNat) :
    step s = .fault (.unreachablePc s.pc) := by
  rw [step_of_running s hrun, fetchDecodeExecute, if_neg (by omega), if_neg (by omega)]

/-- The four ways a step answers a next state, in the order of the checks of 60_exceptions.md R92. -/
theorem step_cases (h : step s = .next t) :
    (s.run = .halted ∧ t = respond .alreadyHalted s) ∨
    (∃ r, s.run = .faulted r ∧ t = respond (.alreadyFaulted r) s) ∨
    (s.run = .running ∧ s.pc.toNat = Config.memCells ∧
      t = respond (.outOfRange 16) (setRun (.faulted .outOfRange) s)) ∨
    (s.fetches ∧ t = (instrControl (decode s.byteAtPc) s).apply s) := by
  cases hrun : s.run with
  | halted =>
    rw [step_of_halted s hrun] at h
    cases h
    exact .inl ⟨rfl, rfl⟩
  | faulted r =>
    rw [step_of_faulted s hrun] at h
    cases h
    exact .inr (.inl ⟨r, rfl, rfl⟩)
  | running =>
    rcases lt_trichotomy s.pc.toNat Config.memCells with hpc | hpc | hpc
    · rw [step_of_fetches s ⟨hrun, hpc⟩] at h
      cases h
      exact .inr (.inr (.inr ⟨⟨hrun, hpc⟩, rfl⟩))
    · rw [step_of_pastEnd s hrun hpc] at h
      cases h
      exact .inr (.inr (.inl ⟨rfl, hpc, rfl⟩))
    · rw [step_of_unreachablePc s hrun hpc] at h
      cases h

end Sys2Proof.Machine
end

section
/-! PROOFS. The host port's memory write: what its checks let through (20_memory.md R31). -/

namespace Sys2Proof.Machine

variable (s : State) (addr value : Int)

@[simp] theorem addrInRange_iff : addrInRange addr = true ↔ 0 ≤ addr ∧ addr < 16 := by
  simp [addrInRange]

@[simp] theorem valueInRange_iff : valueInRange value = true ↔ 0 ≤ value ∧ value ≤ 255 := by
  simp [valueInRange]

theorem hostAddr_toNat (h : 0 ≤ addr ∧ addr < 16) : ((hostAddr addr).toNat : Int) = addr := by
  simp only [hostAddr, BitVec.toNat_ofInt]
  omega

theorem hostValue_toNat (h : 0 ≤ value ∧ value ≤ 255) : ((hostValue value).toNat : Int) = value := by
  simp only [hostValue, BitVec.toNat_ofInt]
  omega

/-- The three answers of `writeMemory`, the address checked first. -/
theorem writeMemory_cases :
    ((0 ≤ addr ∧ addr < 16) ∧ (0 ≤ value ∧ value ≤ 255) ∧
      writeMemory addr value s = (memWrite (hostAddr addr) (hostValue value) s, .ok)) ∨
    ((0 ≤ addr ∧ addr < 16) ∧ ¬ (0 ≤ value ∧ value ≤ 255) ∧
      writeMemory addr value s = (s, .invalidValue value)) ∨
    (¬ (0 ≤ addr ∧ addr < 16) ∧ writeMemory addr value s = (s, .outOfRange addr)) := by
  by_cases ha : 0 ≤ addr ∧ addr < 16
  · by_cases hv : 0 ≤ value ∧ value ≤ 255
    · exact .inl ⟨ha, hv, by simp [writeMemory, ha, hv]⟩
    · exact .inr (.inl ⟨ha, hv, by simp only [writeMemory, addrInRange_iff, valueInRange_iff, if_pos ha, if_neg hv]⟩)
  · exact .inr (.inr ⟨ha, by simp only [writeMemory, addrInRange_iff, if_neg ha]⟩)

end Sys2Proof.Machine
end

section
/-! PROOFS. 10_state.md: the state on creation (R26), and who writes a cell (R13). -/

namespace Sys2Proof.Machine

section

variable (s t : State)

theorem Memory.eq_of_read_write_ne {m : Memory} {a b : Nat} {v : Byte}
    (h : (m.write a v).read b ≠ m.read b) : b = a := by
  by_contra hne
  exact h (Memory.read_write_other m a b v hne)

/-- STA and STI are the only rows of the control table with a memory write. -/
theorem instrControl_memWriteAt (i : Instr) (ea : Nibble) :
    (instrControl i s).memWriteAt = some ea ↔
      i = .sta ea ∨ ∃ d, i = .sti d ∧ dataField (memRead d s) = ea := by
  cases i <;> simp [instrControl]

theorem Control.apply_mem_of_none {c : Control} (h : c.memWriteAt = none) : (c.apply s).mem = s.mem := by
  simp only [Control.apply, h]

theorem Control.apply_mem_of_some {c : Control} {ea : Nibble} (h : c.memWriteAt = some ea) :
    (c.apply s).mem = s.mem.write ea.toNat s.acc := by
  simp only [Control.apply, h]

/-- A step changes a cell only where the fetched instruction's row has a memory write at that cell, of `acc`. -/
theorem step_changes_cell {a : Nat} (h : step s = .next t) (hne : t.mem.read a ≠ s.mem.read a) :
    s.fetches ∧ t.mem.read a = s.acc ∧
      ∃ ea, (instrControl (decode s.byteAtPc) s).memWriteAt = some ea ∧ a = ea.toNat := by
  rcases step_cases s t h with ⟨-, rfl⟩ | ⟨r, -, rfl⟩ | ⟨-, -, rfl⟩ | ⟨hf, rfl⟩
  · exact absurd rfl hne
  · exact absurd rfl hne
  · exact absurd rfl hne
  · cases hw : (instrControl (decode s.byteAtPc) s).memWriteAt with
    | none => rw [Control.apply_mem_of_none s hw] at hne; exact absurd rfl hne
    | some ea =>
      rw [Control.apply_mem_of_some s hw] at hne ⊢
      obtain rfl := Memory.eq_of_read_write_ne hne
      exact ⟨hf, Memory.read_write_same _ _ _, ea, rfl, rfl⟩

/-- The address of a byte's memory write, as the numbers of R70 and R71. -/
theorem memWriteAt_decode_toNat (b : Byte) {ea : Nibble} (h : (instrControl (decode b) s).memWriteAt = some ea) :
    (b.toNat / 16 = 3 ∧ ea.toNat = b.toNat % 16) ∨
    (b.toNat / 16 = 4 ∧ ea.toNat = (s.mem.read (b.toNat % 16)).toNat % 16) := by
  rw [← decode_opcode_toNat, ← decode_data_toNat]
  rcases (instrControl_memWriteAt s _ ea).1 h with hi | ⟨d, hi, rfl⟩
  · rw [hi]; exact .inl ⟨rfl, rfl⟩
  · rw [hi]; exact .inr ⟨rfl, dataField_toNat _⟩

/-- `writeMemory` changes a cell only where it is accepted for that cell, which then holds the value. -/
theorem writeMemory_changes_cell {addr value : Int} {a : Nat}
    (hne : (writeMemory addr value s).1.mem.read a ≠ s.mem.read a) :
    a < 16 ∧ addr = a ∧ 0 ≤ value ∧ value ≤ 255 ∧
      (((writeMemory addr value s).1.mem.read a).toNat : Int) = value := by
  rcases writeMemory_cases s addr value with ⟨ha, hv, hw⟩ | ⟨-, -, hw⟩ | ⟨-, hw⟩
  · rw [hw] at hne ⊢
    obtain rfl := Memory.eq_of_read_write_ne hne
    simp only [memWrite_mem, Memory.read_write_same]
    exact ⟨nibble_lt _, (hostAddr_toNat addr ha).symm, hv.1, hv.2, hostValue_toNat value hv⟩
  · rw [hw] at hne; exact absurd rfl hne
  · rw [hw] at hne; exact absurd rfl hne

end

/-- Settles O1: reset lists no cell, so every address reads as the reset value. -/
theorem resetIsCreationState : Obligations.ResetIsCreationState :=
  ⟨fun a _ => Memory.read_nil a, rfl, rfl, rfl, rfl⟩

/-- Settles O34, by the kind of transaction: reads and queries keep memory, and the other two are
`writeMemory_changes_cell` and `step_changes_cell`. -/
theorem onlyStoresAndHostWriteMemory : Obligations.OnlyStoresAndHostWriteMemory := by
  intro op s t a h hne
  cases op with
  | step =>
    obtain ⟨hf, hacc, ea, hw, rfl⟩ := step_changes_cell s t h hne
    exact ⟨nibble_lt ea, .inr ⟨rfl, hf, hacc, memWriteAt_decode_toNat s _ hw⟩⟩
  | writeMemory addr value =>
    cases h
    obtain ⟨hlt, rfl, h0, h255, hval⟩ := writeMemory_changes_cell s hne
    exact ⟨hlt, .inl ⟨value, rfl, h0, h255, hval⟩⟩
  | readMemory | getAccumulator | getProgramCounter | isHalted =>
    cases h
    exact absurd rfl hne

end Sys2Proof.Machine
end

section
/-! PROOFS. 20_memory.md: what the host reads back through its port (R35). -/

namespace Sys2Proof.Machine

section

variable (s : State) (addr : Int)

theorem readMemory_inRange (h : 0 ≤ addr ∧ addr < 16) :
    readMemory addr s = .okRead (memRead (hostAddr addr) s) := by
  simp only [readMemory, addrInRange_iff, if_pos h]

theorem readMemory_outOfRange (h : ¬ (0 ≤ addr ∧ addr < 16)) : readMemory addr s = .outOfRange addr := by
  simp only [readMemory, addrInRange_iff, if_neg h]

theorem writeMemory_inRange {value : Int} (ha : 0 ≤ addr ∧ addr < 16) (hv : 0 ≤ value ∧ value ≤ 255) :
    writeMemory addr value s = (memWrite (hostAddr addr) (hostValue value) s, .ok) :=
  ((writeMemory_cases s addr value).resolve_right fun h => h.elim (·.2.1 hv) (·.1 ha)).2.2

theorem writeMemory_invalidValue {value : Int} (ha : 0 ≤ addr ∧ addr < 16) (hv : ¬ (0 ≤ value ∧ value ≤ 255)) :
    writeMemory addr value s = (s, .invalidValue value) :=
  (((writeMemory_cases s addr value).resolve_left (hv ·.2.1)).resolve_right (·.1 ha)).2.2

theorem writeMemory_outOfRange {value : Int} (ha : ¬ (0 ≤ addr ∧ addr < 16)) :
    writeMemory addr value s = (s, .outOfRange addr) :=
  (((writeMemory_cases s addr value).resolve_left (ha ·.1)).resolve_left (ha ·.1)).2

theorem serve_cons_of_next {op : HostOp} {t : State} (ops : List HostOp) (h : transact op s = .next t) :
    serve (op :: ops) s = serve ops t := by
  simp only [serve, h]

/-- Only a step can end in a fault; every other transaction answers. -/
theorem transact_answers {op : HostOp} (h : op ≠ .step) : ∃ t, transact op s = .next t := by
  cases op with
  | step => exact absurd rfl h
  | readMemory | writeMemory | getAccumulator | getProgramCounter | isHalted => exact ⟨_, rfl⟩

/-- A transaction that is neither a step nor a host write to a cell keeps the cell: `onlyStoresAndHostWriteMemory` leaves
no other writer. -/
theorem transact_keeps_cell {op : HostOp} {t : State} {a : Nat} (hstep : op ≠ .step)
    (hwrite : ∀ v, op ≠ .writeMemory a v) (h : transact op s = .next t) : t.mem.read a = s.mem.read a := by
  by_contra hne
  obtain ⟨-, ⟨v, hop, -⟩ | ⟨hop, -⟩⟩ := onlyStoresAndHostWriteMemory op s t a h hne
  · exact hwrite v hop
  · exact hstep hop

/-- Transactions that are neither steps nor host writes to a cell all answer, and keep the cell. -/
theorem serve_keeps_cell {ops : List HostOp} {a : Nat} (h : ∀ op ∈ ops, op ≠ .step ∧ ∀ v, op ≠ .writeMemory a v) :
    ∃ t, serve ops s = .next t ∧ t.mem.read a = s.mem.read a := by
  induction ops generalizing s with
  | nil => exact ⟨s, rfl, rfl⟩
  | cons op ops ih =>
    obtain ⟨⟨hstep, hwrite⟩, hops⟩ := List.forall_mem_cons.1 h
    obtain ⟨u, hu⟩ := transact_answers s hstep
    obtain ⟨t, ht, hread⟩ := ih u hops
    exact ⟨t, (serve_cons_of_next s ops hu).trans ht, hread.trans (transact_keeps_cell s hstep hwrite hu)⟩

end

/-- Settles O43: the write puts the value in the cell, `serve_keeps_cell` keeps it there through the transactions
between, and the read answers with the cell; the failures are the other cases of the port's checks. -/
theorem hostReadReturnsHostWrite : Obligations.HostReadReturnsHostWrite := by
  refine ⟨fun s addr value ops h0 h15 hv0 hv255 hops => ?_, fun s addr value ha => ?_, fun s addr value h0 h15 hv => ?_⟩
  · have ha : 0 ≤ addr ∧ addr < 16 := ⟨h0, by omega⟩
    have hv : 0 ≤ value ∧ value ≤ 255 := ⟨hv0, hv255⟩
    have hwrite : transact (.writeMemory addr value) s =
        .next (respond .ok (memWrite (hostAddr addr) (hostValue value) s)) := by
      rw [transact, writeMemory_inRange s addr ha hv]
    rw [← hostAddr_toNat addr ha] at hops
    obtain ⟨t, ht, hcell⟩ := serve_keeps_cell _ hops
    refine ⟨t, hostValue value, (serve_cons_of_next s ops hwrite).trans ht, ?_, hostValue_toNat value hv⟩
    rw [readMemory_inRange t addr ha, memRead, hcell, respond_mem, memWrite_mem, Memory.read_write_same]
  · have ha' : ¬ (0 ≤ addr ∧ addr < 16) := by omega
    exact ⟨readMemory_outOfRange s addr ha', writeMemory_outOfRange s addr ha'⟩
  · exact writeMemory_invalidValue s addr ⟨h0, by omega⟩ hv

end Sys2Proof.Machine
end

section
/-! PROOFS. 30_encoding.md: the two nibbles of an instruction byte (R48) and the legal bytes (R52). -/

namespace Sys2Proof.Machine

/-- The opcode alone decides legality (R52, R53). -/
theorem wellFormed_iff_opcode_le (i : Instr) : i.wellFormed = true ↔ i.opcode.toNat ≤ 8 := by
  cases i with
  | hlt | lda | ldi | sta | sti | add | sub | jmp | jmz => simp [Instr.wellFormed, Instr.opcode]
  | reserved9 | reserved10 | reserved11 | reserved12 | reserved13 | reserved14 | reserved15 =>
    simp [Instr.wellFormed, Instr.opcode]

theorem wellFormed_decode_iff (b : Byte) : (decode b).wellFormed = true ↔ b.toNat ≤ 0x8F := by
  rw [wellFormed_iff_opcode_le, decode_opcode_toNat]
  omega

/-- Opcode 0 is HLT's alone (R51). -/
theorem eq_hlt_of_opcode_eq_zero {i : Instr} (h : i.opcode.toNat = 0) : i = .hlt i.data := by
  cases i with
  | hlt d => rfl
  | lda | ldi | sta | sti | add | sub | jmp | jmz => simp [Instr.opcode] at h
  | reserved9 | reserved10 | reserved11 | reserved12 | reserved13 | reserved14 | reserved15 =>
    simp [Instr.opcode] at h

theorem decode_eq_hlt {b : Byte} (h : b.toNat ≤ 0x0F) : decode b = .hlt (decode b).data :=
  eq_hlt_of_opcode_eq_zero (by rw [decode_opcode_toNat]; omega)

/-- HLT ignores its data field (R52, R67). -/
theorem exec_hlt_data_irrel (d e : Nibble) (s : State) : exec (.hlt d) s = exec (.hlt e) s := rfl

/-- The byte `16*k + d` of R51 as a number, for the legal opcodes. -/
theorem legalByte_toNat {k d : Nat} (hk : k ≤ 8) (hd : d ≤ 15) : (BitVec.ofNat 8 (16 * k + d)).toNat = 16 * k + d := by
  rw [BitVec.toNat_ofNat]
  omega

/-- Settles O3: the fields of `decode b` are the fields of the byte, and `decodeBytes` takes one byte. -/
theorem oneByteFormatHasTwoNibbles : Obligations.OneByteFormatHasTwoNibbles :=
  fun b _ => ⟨decode_opcode_toNat b, decode_data_toNat b, rfl⟩

/-- Settles O4: legality is a bound on the opcode, the byte's high nibble; the bytes of high nibble 0 decode to HLT,
which ignores the data field they differ in. -/
theorem legalBytesAreOpcodesZeroToEight : Obligations.LegalBytesAreOpcodesZeroToEight := by
  refine ⟨wellFormed_decode_iff, fun k d hk hd => ?_, fun b s hb => ⟨⟨_, decode_eq_hlt hb⟩, ?_⟩⟩
  · rw [wellFormed_decode_iff, decode_opcode_toNat, decode_data_toNat, legalByte_toNat hk hd]
    omega
  · calc exec (decode b) s
      _ = exec (.hlt (decode b).data) s := by rw [← decode_eq_hlt hb]
      _ = exec (.hlt (decode 0x00#8).data) s := exec_hlt_data_irrel _ _ s
      _ = exec (decode 0x00#8) s := by rw [← decode_eq_hlt (b := 0x00#8) (by decide)]

end Sys2Proof.Machine
end

section
/-! PROOFS. 40_halt.md: HLT (R67), whose byte is an instance of the encoding `16*k + d` of every instruction (R51). -/

namespace Sys2Proof

theorem encode_eq_ofNat (i : Instr) : encode i = BitVec.ofNat 8 (16 * i.opcode.toNat + i.data.toNat) := by
  apply BitVec.eq_of_toNat_eq
  rw [encode, BitVec.toNat_append, BitVec.toNat_ofNat, ← Nat.shiftLeft_add_eq_or_of_lt i.data.isLt, Nat.shiftLeft_eq]
  omega

/-- Each row of the opcode map (R51) is read back from its byte, for the sixteen data fields. -/
theorem decode_encode (i : Instr) : decode (encode i) = i := by
  cases i with
  | hlt d | lda d | ldi d | sta d | sti d | add d | sub d | jmp d | jmz d => revert d; decide
  | reserved9 d | reserved10 d | reserved11 d | reserved12 d | reserved13 d | reserved14 d | reserved15 d =>
    revert d; decide

/-- Every instruction is the decoding of its byte `16*k + d`, opcode `k` and data `d` (R51). -/
theorem decode_ofNat_fields (i : Instr) : decode (BitVec.ofNat 8 (16 * i.opcode.toNat + i.data.toNat)) = i := by
  rw [← encode_eq_ofNat, decode_encode]

end Sys2Proof

namespace Sys2Proof.Machine

theorem exec_hlt (d : Nibble) (s : State) : exec (.hlt d) s = .next (respond .ok (setRun .halted s)) := rfl

/-- Settles O6: the byte is HLT's encoding, `exec_hlt` gives the effect and the frame, and a step of the state it leaves
is `step_of_halted`. -/
theorem hltHalts : Obligations.HltHalts := by
  intro d s
  have hrun : (respond .ok (setRun .halted s)).run = .halted := rfl
  refine ⟨decode_ofNat_fields (.hlt d), _, exec_hlt d s, hrun, (halted_eq_true _).2 hrun, rfl, rfl, rfl, fun _ => rfl, ?_⟩
  exact ⟨_, step_of_halted _ hrun, rfl, rfl, rfl, rfl, rfl⟩

end Sys2Proof.Machine
end

section
/-! PROOFS. 41_load_store.md: LDA, LDI, STA and STI (R68 to R71). The two loads are one accumulator update and the two
stores one memory write; direct and indirect differ in the address alone. -/

namespace Sys2Proof.Machine

variable (d : Nibble) (s : State)

theorem exec_lda : exec (.lda d) s = complete (accFromAlu .pass (directOperand d s) s) := rfl
theorem exec_ldi : exec (.ldi d) s = complete (accFromAlu .pass (indirectOperand d s) s) := rfl
theorem exec_sta : exec (.sta d) s = complete (memWrite (directAddr d) s.acc s) := rfl
theorem exec_sti : exec (.sti d) s = complete (memWrite (indirectAddr d s) s.acc s) := rfl

/-- The indirect address is the pointer cell modulo 16 (30_encoding.md R50). -/
theorem indirectAddr_toNat : (indirectAddr d s).toNat = (s.mem.read d.toNat).toNat % 16 := dataField_toNat _

theorem directOperand_eq_read : directOperand d s = s.mem.read d.toNat := rfl

theorem indirectOperand_eq_read : indirectOperand d s = s.mem.read ((s.mem.read d.toNat).toNat % 16) :=
  congrArg s.mem.read (indirectAddr_toNat d s)

theorem alu_pass (a m : Byte) : alu .pass a m = m := rfl

/-- The effect and the frame of an instruction that ends in one accumulator update. -/
theorem complete_accFromAlu (op : AluOp) (m : Byte) :
    ∃ t, complete (accFromAlu op m s) = .next t ∧ t.acc = alu op s.acc m ∧
      t.pc = s.pc ∧ t.run = s.run ∧ t.response = .ok ∧ sameMemory s t :=
  ⟨_, rfl, rfl, rfl, rfl, rfl, fun _ => rfl⟩

/-- The effect and the frame of an instruction that ends in one memory write, whatever the memory held. -/
theorem complete_memWrite (ea : Nibble) (v : Byte) :
    ∃ t, complete (memWrite ea v s) = .next t ∧ t.mem.read ea.toNat = v ∧
      (∀ a : Nat, a ≠ ea.toNat → t.mem.read a = s.mem.read a) ∧
      t.acc = s.acc ∧ t.pc = s.pc ∧ t.run = s.run ∧ t.response = .ok :=
  ⟨_, rfl, Memory.read_write_same _ _ _, fun _ ha => Memory.read_write_other _ _ _ _ ha, rfl, rfl, rfl, rfl⟩

end Sys2Proof.Machine
end

section
/-! PROOFS. The statements of 41_load_store.md: the byte of each instruction is its encoding, and its effect and frame
are those of the one update it ends in. -/

namespace Sys2Proof.Machine

/-- Settles O7: the ALU passes the cell at the direct address. -/
theorem ldaLoadsDirect : Obligations.LdaLoadsDirect := by
  intro d s
  obtain ⟨t, ht, hacc, hframe⟩ := complete_accFromAlu s .pass (directOperand d s)
  rw [alu_pass, directOperand_eq_read] at hacc
  exact ⟨decode_ofNat_fields (.lda d), t, (exec_lda d s).trans ht, hacc, hframe⟩

/-- Settles O8: the ALU passes the cell whose address is the pointer cell modulo 16. -/
theorem ldiLoadsIndirect : Obligations.LdiLoadsIndirect := by
  intro d s
  obtain ⟨t, ht, hacc, hframe⟩ := complete_accFromAlu s .pass (indirectOperand d s)
  rw [alu_pass, indirectOperand_eq_read] at hacc
  exact ⟨decode_ofNat_fields (.ldi d), t, (exec_ldi d s).trans ht, hacc, hframe⟩

/-- Settles O9: a memory write at the direct address, which is the data field itself. -/
theorem staStoresDirect : Obligations.StaStoresDirect := by
  intro d s
  obtain ⟨t, ht, heffect⟩ := complete_memWrite s (directAddr d) s.acc
  exact ⟨decode_ofNat_fields (.sta d), t, (exec_sta d s).trans ht, rfl, heffect⟩

/-- Settles O10: a memory write at the indirect address, which is read from the pointer cell before the write. -/
theorem stiStoresIndirect : Obligations.StiStoresIndirect := by
  intro d s
  obtain ⟨t, ht, heffect⟩ := complete_memWrite s (indirectAddr d s) s.acc
  exact ⟨decode_ofNat_fields (.sti d), t, (exec_sti d s).trans ht, indirectAddr_toNat d s, heffect⟩

end Sys2Proof.Machine
end

section
/-! PROOFS. 42_arithmetic.md: ADD and SUB (R73, R74), each one accumulator update with the cell at the direct address. -/

namespace Sys2Proof.Machine

theorem exec_add (d : Nibble) (s : State) : exec (.add d) s = complete (accFromAlu .add (directOperand d s) s) := rfl
theorem exec_sub (d : Nibble) (s : State) : exec (.sub d) s = complete (accFromAlu .sub (directOperand d s) s) := rfl

/-- The ALU's difference as the non-negative remainder of the integers' difference, whichever operand is greater (R74). -/
theorem alu_sub_toInt (a m : Byte) : ((alu .sub a m).toNat : Int) = ((a.toNat : Int) - (m.toNat : Int)) % 256 := by
  have hm : m.toNat < 256 := m.isLt
  rw [alu_sub_toNat]
  omega

/-- Settles O11: the ALU's sum of the accumulator and the cell at the direct address. -/
theorem addWrapsModulo256 : Obligations.AddWrapsModulo256 := by
  intro d s
  obtain ⟨t, ht, hacc, hframe⟩ := complete_accFromAlu s .add (directOperand d s)
  have hsum : t.acc.toNat = (s.acc.toNat + (s.mem.read d.toNat).toNat) % 256 := by
    rw [hacc, alu_add_toNat, directOperand_eq_read]
  exact ⟨decode_ofNat_fields (.add d), t, (exec_add d s).trans ht, hsum, hframe⟩

/-- Settles O12: the ALU's difference, the accumulator less the cell at the direct address. -/
theorem subWrapsModulo256 : Obligations.SubWrapsModulo256 := by
  intro d s
  obtain ⟨t, ht, hacc, hframe⟩ := complete_accFromAlu s .sub (directOperand d s)
  have hdiff : (t.acc.toNat : Int) = ((s.acc.toNat : Int) - ((s.mem.read d.toNat).toNat : Int)) % 256 := by
    rw [hacc, alu_sub_toInt, directOperand_eq_read]
  exact ⟨decode_ofNat_fields (.sub d), t, (exec_sub d s).trans ht, hdiff, hframe⟩

end Sys2Proof.Machine
end

section
/-! PROOFS. 43_jump.md: JMP and JMZ (R78, R79), each one selection of the program counter (R77). -/

namespace Sys2Proof.Machine

theorem exec_jmp (d : Nibble) (s : State) : exec (.jmp d) s = complete (selectPc (.jump d) s) := rfl
theorem exec_jmz (d : Nibble) (s : State) : exec (.jmz d) s = execJmz d s := rfl

/-- The mux's hold is the way not to jump: the incremented `pc` of the fetch stays. -/
theorem selectPc_hold (s : State) : selectPc .hold s = s := rfl

theorem pcMux_jump_toNat (d : Nibble) (pc : PcWord) : (pcMux (.jump d) pc).toNat = d.toNat := zext5_toNat d

theorem aluZero_iff_toNat (a : Byte) : aluZero a = true ↔ a.toNat = 0 :=
  (aluZero_iff a).trans BitVec.toNat_inj.symm

/-- The effect and the frame of an instruction that ends in one selection of the program counter. -/
theorem complete_selectPc (sel : PcSel) (s : State) :
    ∃ t, complete (selectPc sel s) = .next t ∧ t.pc = pcMux sel s.pc ∧
      t.acc = s.acc ∧ t.run = s.run ∧ t.response = .ok ∧ sameMemory s t :=
  ⟨_, rfl, rfl, rfl, rfl, rfl, fun _ => rfl⟩

/-- Settles O14: the zero test selects the jump where the accumulator is zero, and otherwise `pc` is held. -/
theorem jmzJumpsOnZero : Obligations.JmzJumpsOnZero := by
  intro d s
  refine ⟨decode_ofNat_fields (.jmz d), ?_⟩
  rw [exec_jmz]
  by_cases hz : s.acc.toNat = 0
  · obtain ⟨t, ht, hpc, hframe⟩ := complete_selectPc (.jump d) s
    rw [if_pos hz, execJmz_taken s d ((aluZero_iff_toNat _).2 hz)]
    exact ⟨t, ht, by rw [hpc, pcMux_jump_toNat], hframe⟩
  · obtain ⟨t, ht, hpc, hframe⟩ := complete_selectPc .hold s
    rw [if_neg hz, execJmz_notTaken s d (mt (aluZero_iff_toNat _).1 hz)]
    rw [selectPc_hold] at ht
    exact ⟨t, ht, congrArg BitVec.toNat hpc, hframe⟩

/-- Settles O13: the jump is selected whatever the state. -/
theorem jmpJumps : Obligations.JmpJumps := by
  intro d s
  obtain ⟨t, ht, hpc, hframe⟩ := complete_selectPc (.jump d) s
  exact ⟨decode_ofNat_fields (.jmp d), t, (exec_jmp d s).trans ht, by rw [hpc, pcMux_jump_toNat], hframe⟩

end Sys2Proof.Machine
end

section
/-! PROOFS. 60_exceptions.md: a step of a Halted block (R91), and that Halted and Faulted are left by no sequence of
transactions (R93). -/

namespace Sys2Proof.Machine

section

variable (s : State)

/-- A step of a block that is not Running is rejected: it changes the response alone. -/
theorem step_of_not_running (h : s.run ≠ .running) : ∃ e, step s = .next (respond e s) := by
  cases hrun : s.run with
  | running => exact absurd hrun h
  | halted => exact ⟨_, step_of_halted s hrun⟩
  | faulted r => exact ⟨_, step_of_faulted s hrun⟩

/-- The host's memory write is no way to change the run state, whichever of its three answers it gives. -/
@[simp] theorem writeMemory_run (addr value : Int) : (writeMemory addr value s).1.run = s.run := by
  rcases writeMemory_cases s addr value with ⟨-, -, hw⟩ | ⟨-, -, hw⟩ | ⟨-, hw⟩
  · rw [hw, memWrite_run]
  · rw [hw]
  · rw [hw]

theorem transact_keeps_terminal_run (op : HostOp) (h : s.run ≠ .running) :
    ∃ t, transact op s = .next t ∧ t.run = s.run := by
  cases op with
  | step =>
    obtain ⟨e, he⟩ := step_of_not_running s h
    exact ⟨_, he, respond_run s e⟩
  | writeMemory addr value => exact ⟨_, rfl, writeMemory_run s addr value⟩
  | readMemory | getAccumulator | getProgramCounter | isHalted => exact ⟨_, rfl, respond_run s _⟩

end

/-- Settles O37, by induction on the transactions: each answers a state in the same run state, so the next one finds a
block that is not Running either. -/
theorem haltedAndFaultedAreTerminal : Obligations.HaltedAndFaultedAreTerminal := by
  intro ops
  induction ops with
  | nil => exact fun s _ => ⟨s, rfl, rfl⟩
  | cons op ops ih =>
    intro s h
    obtain ⟨u, hu, hurun⟩ := transact_keeps_terminal_run s op h
    obtain ⟨t, ht, htrun⟩ := ih u (hurun ▸ h)
    exact ⟨t, (serve_cons_of_next s ops hu).trans ht, htrun.trans hurun⟩

/-- Settles O19: the rejection `step_of_halted` replaces the response and keeps the four fields of the block. -/
theorem haltedStepIsRejected : Obligations.HaltedStepIsRejected :=
  fun s h => ⟨_, step_of_halted s h, rfl, rfl, rfl, rfl, rfl⟩

end Sys2Proof.Machine
end

section
/-! PROOFS. 30_encoding.md section 3: encoding is the inverse of decoding on all bytes. -/

namespace Sys2Proof

theorem encode_toNat (i : Instr) : (encode i).toNat = 16 * i.opcode.toNat + i.data.toNat := by
  have hop := i.opcode.isLt
  have hdata := i.data.isLt
  rw [encode_eq_ofNat, BitVec.toNat_ofNat]
  omega

/-- A byte is 16 times its opcode plus its data field (R51), so encoding puts it together again. -/
theorem encode_decode (b : Byte) : encode (decode b) = b := by
  apply BitVec.eq_of_toNat_eq
  rw [encode_toNat, decode_opcode_toNat, decode_data_toNat]
  omega

/-- Settles O5: `decode_encode` is one direction and `encode_decode` the other. -/
theorem decodeAndEncodeAreInverse : Obligations.DecodeAndEncodeAreInverse := by
  intro i b
  constructor
  · rintro rfl
    exact encode_decode b
  · rintro rfl
    exact decode_encode i

end Sys2Proof
end

section
/-! PROOFS. The rows of the control table of 30_encoding.md R57 by opcode, and what applying a row leaves. -/

namespace Sys2Proof.Machine

section

variable (s : State) (i : Instr) (c : Control)

/-- The instruction takes its jump: JMP, or JMZ at a zero accumulator (43_jump.md R77 to R79). -/
abbrev jumps (i : Instr) (acc : Byte) : Prop := i.opcode.toNat = 7 ∨ (i.opcode.toNat = 8 ∧ acc = 0)

theorem instrControl_pcSelect :
    (instrControl i s).pcSelect = if jumps i s.acc then .jump i.data else .inc := by
  cases i <;> simp [instrControl, jumps, Instr.opcode, Instr.data, aluZero_iff]

/-- HLT and the reserved opcodes are the only rows that write the run state. -/
theorem instrControl_runWritten :
    (instrControl i s).runWritten =
      if i.opcode.toNat = 0 then some .halted
      else if i.opcode.toNat ≤ 8 then none
      else some (.faulted .illegalOpcode) := by
  cases i <;> simp [instrControl, Instr.opcode]

theorem instrControl_response :
    (instrControl i s).response = if i.opcode.toNat ≤ 8 then .ok else .illegalOpcode i.opcode := by
  cases i <;> simp [instrControl, Instr.opcode]

/-- The rows of LDA, LDI, ADD and SUB write the accumulator. -/
theorem instrControl_accWritten :
    (instrControl i s).accWritten = true ↔ i.opcode.toNat ∈ [1, 2, 5, 6] := by
  cases i <;> simp [instrControl, Instr.opcode]

@[simp] theorem Control.apply_pc : (c.apply s).pc = pcMux c.pcSelect s.pc := rfl
@[simp] theorem Control.apply_run : (c.apply s).run = c.runWritten.getD s.run := rfl
@[simp] theorem Control.apply_response : (c.apply s).response = c.response := rfl
@[simp] theorem Control.apply_acc :
    (c.apply s).acc = if c.accWritten then c.aluOutput s.acc else s.acc := rfl

end

end Sys2Proof.Machine
end

section
/-! PROOFS. 30_encoding.md R56 and R57: the step of every state with a reachable `pc` is its row of the control table,
and the fields of the next state are read from the row. -/

namespace Sys2Proof.Machine

section

variable (s : State)

theorem pc_eq_sixteen_iff (pc : PcWord) : pc = 16 ↔ pc.toNat = Config.memCells := by
  rw [← BitVec.toNat_inj]
  rfl

theorem stepControl_of_fetches (h : s.fetches) : stepControl s = instrControl (decode s.byteAtPc) s := by
  obtain ⟨hrun, hpc⟩ := h
  simp only [stepControl, hrun]
  rw [if_neg (by omega), fetchByte_eq s hpc]

theorem stepControl_of_pastEnd (hrun : s.run = .running) (hpc : s.pc.toNat = Config.memCells) :
    stepControl s = ⟨.idle, false, .hold, none, some (.faulted .outOfRange), .outOfRange 16⟩ := by
  simp only [stepControl, hrun]
  exact if_pos hpc

theorem stepControl_of_halted (h : s.run = .halted) :
    stepControl s = ⟨.idle, false, .hold, none, none, .alreadyHalted⟩ := by
  simp only [stepControl, h]

theorem stepControl_of_faulted {r : FaultReason} (h : s.run = .faulted r) :
    stepControl s = ⟨.idle, false, .hold, none, none, .alreadyFaulted r⟩ := by
  simp only [stepControl, h]

/-- The step as its control row, in each of the four cases of 60_exceptions.md R92. -/
theorem step_eq_apply (h : s.pc.toNat ≤ Config.memCells) : step s = .next ((stepControl s).apply s) := by
  cases hrun : s.run with
  | halted => rw [step_of_halted s hrun, stepControl_of_halted s hrun]; rfl
  | faulted r => rw [step_of_faulted s hrun, stepControl_of_faulted s hrun]; rfl
  | running =>
    rcases Nat.lt_or_eq_of_le h with hpc | hpc
    · rw [step_of_fetches s ⟨hrun, hpc⟩, stepControl_of_fetches s ⟨hrun, hpc⟩]
    · rw [step_of_pastEnd s hrun hpc, stepControl_of_pastEnd s hrun hpc]; rfl

/-- A step that does not fetch, at a reachable `pc`, changes the run state and the response alone. -/
theorem stepControl_of_not_fetches (hpc : s.pc.toNat ≤ Config.memCells) (h : ¬ s.fetches) :
    ∃ run response, stepControl s = ⟨.idle, false, .hold, none, run, response⟩ := by
  cases hrun : s.run with
  | halted => exact ⟨_, _, stepControl_of_halted s hrun⟩
  | faulted r => exact ⟨_, _, stepControl_of_faulted s hrun⟩
  | running => exact ⟨_, _, stepControl_of_pastEnd s hrun (by have := mt (And.intro hrun) h; omega)⟩

/-- The next `pc` of an executed instruction, as a number. -/
theorem fetched_pc_toNat (i : Instr) (h : s.pc.toNat < Config.memCells) :
    ((instrControl i s).apply s).pc.toNat = if jumps i s.acc then i.data.toNat else s.pc.toNat + 1 := by
  rw [Control.apply_pc, instrControl_pcSelect]
  split
  · exact pcMux_jump_toNat _ _
  · exact pcMux_inc_toNat _ h

theorem fetched_run (i : Instr) (h : s.run = .running) :
    ((instrControl i s).apply s).run =
      if i.opcode.toNat = 0 then .halted
      else if i.opcode.toNat ≤ 8 then .running
      else .faulted .illegalOpcode := by
  rw [Control.apply_run, instrControl_runWritten]
  split
  · rfl
  · split
    · exact h
    · rfl

end

/-- Settles O39: `step_eq_apply`, the four cases of the step against the rows of the table. -/
theorem datapathTableGivesStep : Obligations.DatapathTableGivesStep := step_eq_apply

end Sys2Proof.Machine
end

section
/-! PROOFS. The block's invariant (10_state.md R15): reset meets it, and every step and every host transaction keeps
it. -/

namespace Sys2Proof.Machine

section

variable (s : State)

theorem Control.apply_mem_wf (c : Control) (h : s.mem.wf) : (c.apply s).mem.wf := by
  cases hw : c.memWriteAt with
  | none => rwa [Control.apply_mem_of_none s hw]
  | some ea => rw [Control.apply_mem_of_some s hw]; exact Memory.wf_write _ _ _ h (nibble_lt ea)

/-- Outside the fault of a fetch at 16, a `pc` that has left 0 fits every run state. -/
theorem pcFitsRun_of_pos {r : RunState} {pc : PcWord} (hpc : 1 ≤ pc.toNat) (hr : r ≠ .faulted .outOfRange) :
    pcFitsRun r pc = true := by
  cases r with
  | running => rfl
  | halted => exact decide_eq_true hpc
  | faulted r =>
    cases r with
    | illegalOpcode => exact decide_eq_true hpc
    | outOfRange => exact absurd rfl hr

/-- An executed instruction leaves a `pc` that fits its run state: a jump stays Running, and everything else has
advanced `pc`. -/
theorem fetched_pcFitsRun (i : Instr) (h : s.fetches) :
    pcFitsRun ((instrControl i s).apply s).run ((instrControl i s).apply s).pc = true := by
  have hrun := fetched_run s i h.1
  have hpc := fetched_pc_toNat s i h.2
  by_cases hjump : jumps i s.acc
  · rw [hrun, if_neg (by omega), if_pos (by omega)]
    rfl
  · rw [if_neg hjump] at hpc
    refine pcFitsRun_of_pos (by omega) ?_
    rw [hrun]
    split
    · simp
    · split <;> simp

theorem fetched_inv (i : Instr) (h : s.fetches) (hmem : s.mem.wf) : ((instrControl i s).apply s).Inv := by
  refine ⟨Control.apply_mem_wf s _ hmem, ?_, fetched_pcFitsRun s i h⟩
  have hpc : s.pc.toNat < 16 := h.2
  have hdata := i.data.isLt
  rw [fetched_pc_toNat s i hpc]
  split
  · exact hdata.le
  · exact hpc

/-- The step keeps the invariant in each of its four ways to answer. -/
theorem step_keeps_inv {t : State} (hinv : s.Inv) (h : step s = .next t) : t.Inv := by
  rcases step_cases s t h with ⟨-, rfl⟩ | ⟨r, -, rfl⟩ | ⟨-, hpc, rfl⟩ | ⟨hf, rfl⟩
  · exact hinv
  · exact hinv
  · exact ⟨hinv.1, hinv.2.1, beq_iff_eq.2 ((pc_eq_sixteen_iff s.pc).2 hpc)⟩
  · exact fetched_inv s _ hf hinv.1

/-- The host's memory write keeps the invariant, whichever of its three answers it gives. -/
theorem writeMemory_keeps_inv (addr value : Int) (hinv : s.Inv) : (writeMemory addr value s).1.Inv := by
  rcases writeMemory_cases s addr value with ⟨-, -, hw⟩ | ⟨-, -, hw⟩ | ⟨-, hw⟩
  · rw [hw]
    exact ⟨memWrite_wf s _ _ hinv.1, hinv.2⟩
  · rwa [hw]
  · rwa [hw]

theorem transact_keeps_inv (op : HostOp) (hinv : s.Inv) : ∃ t, transact op s = .next t ∧ t.Inv := by
  cases op with
  | step => exact ⟨_, step_eq_apply s hinv.2.1, step_keeps_inv s hinv (step_eq_apply s hinv.2.1)⟩
  | writeMemory addr value => exact ⟨_, rfl, writeMemory_keeps_inv s addr value hinv⟩
  | readMemory | getAccumulator | getProgramCounter | isHalted => exact ⟨_, rfl, hinv⟩

end

/-- Settles O31: a state in the invariant has a reachable `pc`, so it steps, and `step_keeps_inv`. -/
theorem stepKeepsBlockInvariant : Obligations.StepKeepsBlockInvariant :=
  fun s hinv => ⟨_, step_eq_apply s hinv.2.1, step_keeps_inv s hinv (step_eq_apply s hinv.2.1)⟩

/-- Settles O32: no cell is listed, and the block is Running at 0. -/
theorem resetMeetsBlockInvariant : Obligations.ResetMeetsBlockInvariant :=
  ⟨Memory.wf_nil, Nat.zero_le _, rfl⟩

/-- Settles O33: `transact_keeps_inv`, by the kind of transaction. -/
theorem everyTransactionKeepsBlockInvariant : Obligations.EveryTransactionKeepsBlockInvariant :=
  fun op s => transact_keeps_inv s op

end Sys2Proof.Machine
end

section
/-! PROOFS. 20_memory.md R41: a cell holds the latest write in the order of accesses. -/

namespace Sys2Proof.Machine

section

variable (s t : State) (v w : Byte) (a b : Nibble) (log log' : List Access)

@[simp] theorem latestWrite_nil : latestWrite v [] a = v := rfl
@[simp] theorem latestWrite_read : latestWrite v (.read b :: log) a = latestWrite v log a := rfl
@[simp] theorem latestWrite_write :
    latestWrite v (.write b w :: log) a = latestWrite (if b = a then w else v) log a := rfl

theorem latestWrite_append : latestWrite v (log ++ log') a = latestWrite (latestWrite v log a) log' a := by
  induction log generalizing v with
  | nil => rfl
  | cons x log ih =>
    cases x with
    | read b => exact ih v
    | write b w => exact ih _

theorem read_memory_write_nibble :
    (s.mem.write b.toNat w).read a.toNat = if b = a then w else s.mem.read a.toNat := by
  rw [Memory.read_write]
  simp only [BitVec.toNat_inj]

theorem stepAccesses_of_fetches (h : s.fetches) :
    stepAccesses s = .read (fetchAddr s) :: execAccesses (decode s.byteAtPc) s := by
  simp only [stepAccesses, h.1]
  rw [if_pos h.2, fetchByte_eq s h.2]

theorem stepAccesses_of_not_fetches (h : ¬ s.fetches) : stepAccesses s = [] := by
  cases hrun : s.run with
  | halted => simp only [stepAccesses, hrun]
  | faulted r => simp only [stepAccesses, hrun]
  | running =>
    simp only [stepAccesses, hrun]
    exact if_neg (mt (And.intro hrun) h)

/-- The accesses of an instruction account for what it leaves in memory: STA and STI end in their write, and the others
make no write. -/
theorem fetched_cell (i : Instr) :
    ((instrControl i s).apply s).mem.read a.toNat = latestWrite (s.mem.read a.toNat) (execAccesses i s) a := by
  cases i with
  | sta d => exact read_memory_write_nibble s _ a _
  | sti d => exact read_memory_write_nibble s _ a _
  | hlt | lda | ldi | add | sub | jmp | jmz => rfl
  | reserved9 | reserved10 | reserved11 | reserved12 | reserved13 | reserved14 | reserved15 => rfl

theorem step_cell (h : step s = .next t) :
    t.mem.read a.toNat = latestWrite (s.mem.read a.toNat) (stepAccesses s) a := by
  rcases step_cases s t h with ⟨hrun, rfl⟩ | ⟨r, hrun, rfl⟩ | ⟨-, hpc, rfl⟩ | ⟨hf, rfl⟩
  · rw [stepAccesses_of_not_fetches s (by simp [hrun])]; rfl
  · rw [stepAccesses_of_not_fetches s (by simp [hrun])]; rfl
  · rw [stepAccesses_of_not_fetches s (by simp [hpc])]; rfl
  · rw [stepAccesses_of_fetches s hf, latestWrite_read]
    exact fetched_cell s a _

/-- The host's memory write is an access exactly where both checks pass. -/
theorem writeMemory_cell (addr value : Int) :
    (writeMemory addr value s).1.mem.read a.toNat =
      latestWrite (s.mem.read a.toNat) (opAccesses (.writeMemory addr value) s) a := by
  rcases writeMemory_cases s addr value with ⟨ha, hv, hw⟩ | ⟨-, hv, hw⟩ | ⟨ha, hw⟩
  · simp only [hw, opAccesses, addrInRange_iff, valueInRange_iff, Bool.and_eq_true, if_pos (And.intro ha hv)]
    exact read_memory_write_nibble s _ a _
  · simp only [hw, opAccesses, addrInRange_iff, valueInRange_iff, Bool.and_eq_true, if_neg (mt And.right hv),
      latestWrite_nil]
  · simp only [hw, opAccesses, addrInRange_iff, valueInRange_iff, Bool.and_eq_true, if_neg (mt And.left ha),
      latestWrite_nil]

theorem transact_cell (op : HostOp) (h : transact op s = .next t) :
    t.mem.read a.toNat = latestWrite (s.mem.read a.toNat) (opAccesses op s) a := by
  cases op with
  | step => exact step_cell s t a h
  | writeMemory addr value =>
    cases h
    exact writeMemory_cell s a addr value
  | readMemory addr =>
    cases h
    simp only [opAccesses]
    split <;> rfl
  | getAccumulator | getProgramCounter | isHalted => cases h; rfl

theorem history_cons_of_next {op : HostOp} (ops : List HostOp) (h : transact op s = .next t) :
    history (op :: ops) s = opAccesses op s ++ history ops t := by
  simp only [history, h]

end

/-- Settles O42, by induction on the transactions from any state in the invariant: the first is answered in the
invariant and accounts for its own accesses (`transact_cell`), and the rest start from what it left. -/
theorem cellHoldsLatestWrite : Obligations.CellHoldsLatestWrite := by
  intro ops
  induction ops with
  | nil => exact fun s _ => ⟨s, rfl, fun _ => rfl⟩
  | cons op ops ih =>
    intro s hinv
    obtain ⟨u, hu, huinv⟩ := transact_keeps_inv s op hinv
    obtain ⟨t, ht, hcell⟩ := ih u huinv
    refine ⟨t, (serve_cons_of_next s ops hu).trans ht, fun a => ?_⟩
    rw [history_cons_of_next s u ops hu, latestWrite_append, ← transact_cell s u a op hu]
    exact hcell a

end Sys2Proof.Machine
end

section
/-! PROOFS. The instructions as `exec` runs them: the reserved opcodes (30_encoding.md R55), and that each answers. -/

namespace Sys2Proof.Machine

section

variable (s : State) (i : Instr)

/-- Every reserved opcode takes the illegal-opcode fault, whatever its data field. -/
theorem exec_of_illegal (h : 8 < i.opcode.toNat) : exec i s = raiseIllegal i.opcode s := by
  cases i with
  | hlt | lda | ldi | sta | sti | add | sub | jmp | jmz => simp [Instr.opcode] at h
  | reserved9 | reserved10 | reserved11 | reserved12 | reserved13 | reserved14 | reserved15 => rfl

theorem mem_reserved_iff (d : Nibble) :
    i ∈ [.reserved9 d, .reserved10 d, .reserved11 d, .reserved12 d, .reserved13 d, .reserved14 d, .reserved15 d] ↔
      9 ≤ i.opcode.toNat ∧ i.data = d := by
  cases i with
  | hlt | lda | ldi | sta | sti | add | sub | jmp | jmz => simp [Instr.opcode]
  | reserved9 | reserved10 | reserved11 | reserved12 | reserved13 | reserved14 | reserved15 =>
    simp [Instr.opcode, Instr.data]

/-- Every state is one a fetch has advanced to, so what holds after a fetch holds of `exec` from every state. -/
theorem exists_afterFetch_eq : ∃ u, afterFetch u = s :=
  ⟨{ s with pc := s.pc - 1 }, by simp [afterFetch, selectPc, pcMux]⟩

/-- A legal instruction reports ok and takes no fault. -/
theorem exec_of_legal (h : i.opcode.toNat ≤ 8) :
    ∃ t, exec i s = .next t ∧ t.response = .ok ∧ (s.unfaulted → t.unfaulted) := by
  obtain ⟨u, rfl⟩ := exists_afterFetch_eq s
  refine ⟨_, exec_afterFetch u i, ?_, fun hs r => ?_⟩
  · rw [Control.apply_response, instrControl_response, if_pos h]
  · rw [Control.apply_run, instrControl_runWritten, if_pos h]
    split
    · simp
    · exact hs r

end

/-- Settles O2: thirteen bytes, each decoded. -/
theorem writtenOutBytesDecode : Obligations.WrittenOutBytesDecode := by
  unfold Obligations.WrittenOutBytesDecode
  decide

/-- Settles O15: the reserved instructions are those of opcode at least 9 (`mem_reserved_iff`), `exec_of_illegal` gives
the fault with its frame, and the next step is `step_of_faulted`. -/
theorem reservedOpcodesFault : Obligations.ReservedOpcodesFault := by
  refine ⟨fun b hb => ⟨(decode b).data, (mem_reserved_iff _ _).2 ⟨?_, rfl⟩⟩, fun d s i hi => ?_⟩
  · rw [decode_opcode_toNat]
    omega
  · obtain ⟨hop, rfl⟩ := (mem_reserved_iff i d).1 hi
    have hrun : (respond (.illegalOpcode i.opcode) (setRun (.faulted .illegalOpcode) s)).run =
        .faulted .illegalOpcode := rfl
    refine ⟨hop, decode_ofNat_fields i, _, exec_of_illegal s i hop, hrun, rfl, rfl, rfl, rfl, fun _ => rfl, ?_⟩
    exact ⟨_, step_of_faulted _ hrun, rfl, rfl, rfl, rfl, rfl⟩

/-- Settles O23: legality is a bound on the opcode; `exec_of_legal` is below it and `exec_of_illegal` above. -/
theorem everyInstructionCompletes : Obligations.EveryInstructionCompletes := by
  intro i s
  by_cases h : i.opcode.toNat ≤ 8
  · have hwf : i.wellFormed = true := (wellFormed_iff_opcode_le i).2 h
    obtain ⟨t, ht, hok, hun⟩ := exec_of_legal s i h
    exact ⟨t, ht, by simp [hok, hwf], fun hs => by simpa [hwf] using hun hs⟩
  · have hwf : i.wellFormed = false := by simpa using mt (wellFormed_iff_opcode_le i).1 h
    exact ⟨_, exec_of_illegal s i (Nat.lt_of_not_le h), by simp [hwf], fun _ => by simp [hwf, State.unfaulted]⟩

/-- Settles O16: both ALU operations take the same cell, which neither writes, and one undoes the other. -/
theorem subUndoesAdd : Obligations.SubUndoesAdd := by
  intro d s
  have hsub : alu .sub (alu .add s.acc (directOperand d s)) (directOperand d s) = s.acc := BitVec.add_sub_cancel _ _
  have hadd : alu .add (alu .sub s.acc (directOperand d s)) (directOperand d s) = s.acc := BitVec.sub_add_cancel _ _
  exact ⟨_, _, exec_add d s, exec_sub d _, ⟨rfl, rfl, hsub, rfl⟩,
    _, _, exec_sub d s, exec_add d _, ⟨rfl, rfl, hadd, rfl⟩⟩

end Sys2Proof.Machine
end

section
/-! PROOFS. The step: which instruction it runs and from which state (30_encoding.md R56), when it stops, and the
self-jump (43_jump.md R78). -/

namespace Sys2Proof.Machine

section

variable (s : State)

theorem step_eq_exec (h : s.fetches) : step s = exec (decode s.byteAtPc) (afterFetch s) := by
  rw [step_of_fetches s h, exec_afterFetch]

theorem pc_succ_toNat (h : s.pc.toNat < Config.memCells) : (s.pc + 1).toNat = s.pc.toNat + 1 :=
  pcMux_inc_toNat s.pc h

/-- Only a Running block at an unreachable `pc` has no next state. -/
theorem step_answers (h : ¬ (s.run = .running ∧ Config.memCells < s.pc.toNat)) : ∃ t, step s = .next t := by
  by_cases hrun : s.run = .running
  · exact ⟨_, step_eq_apply s (Nat.le_of_not_lt (mt (And.intro hrun) h))⟩
  · obtain ⟨e, he⟩ := step_of_not_running s hrun
    exact ⟨_, he⟩

/-! The host's probe (log 10): the state it makes fetches the placed byte. -/

theorem withFetchWord_pc_lt (nbits w : Nat) : (s.withFetchWord nbits w).pc.toNat < Config.memCells := by
  simp only [State.withFetchWord, placeFetchByte]
  split
  next h => exact h
  next => decide

theorem withFetchWord_fetches (nbits w : Nat) : (s.withFetchWord nbits w).fetches :=
  ⟨rfl, withFetchWord_pc_lt s nbits w⟩

theorem withFetchWord_byteAtPc (nbits w : Nat) : (s.withFetchWord nbits w).byteAtPc = tableByte nbits w :=
  Memory.read_write_same _ _ _

theorem withFetchWord_of_fetches (nbits w : Nat) (h : s.fetches) :
    s.withFetchWord nbits w = { s with run := .running, mem := s.mem.write s.pc.toNat (tableByte nbits w) } := by
  simp only [State.withFetchWord, placeFetchByte, if_pos h.2]

theorem tableByte_eight (w : Nat) : tableByte 8 w = BitVec.ofNat 8 w := by
  apply BitVec.eq_of_toNat_eq
  simp [tableByte]

/-! The jump to its own address. -/

theorem zext5_ofNat_pc (h : s.pc.toNat < Config.memCells) : zext5 (BitVec.ofNat 4 s.pc.toNat) = s.pc := by
  apply BitVec.eq_of_toNat_eq
  rw [zext5_toNat, BitVec.toNat_ofNat]
  exact Nat.mod_eq_of_lt h

theorem step_of_selfJump (h : s.fetches) (hjmp : decode s.byteAtPc = .jmp (BitVec.ofNat 4 s.pc.toNat)) :
    step s = .next (respond .ok s) := by
  rw [step_eq_exec s h, hjmp, exec_jmp, complete]
  simp only [afterFetch, selectPc, pcMux, zext5_ofNat_pc s h.2]

theorem core_run_succ_of_next (n : Nat) {t : State} (h : step s = .next t) :
    Sys2Proof.core.run (n + 1) s = Sys2Proof.core.run n t := by
  have hcore : Sys2Proof.core.step s = .next t := h
  simp only [Host.Core.run, hcore]

end

/-- Settles O17: `step_eq_exec`, with the increment not masked to four bits. -/
theorem stepRunsDecodedInstruction : Obligations.StepRunsDecodedInstruction := by
  rintro s i h rfl
  exact ⟨step_eq_exec s h, pc_succ_toNat s h.2⟩

/-- Settles O18: the state with the placed word fetches that word, so its step is `step_eq_exec`; where the state could
fetch before, `withFetchWord_of_fetches` says that only the cell at `pc` was written. -/
theorem stepRunsPlacedWord : Obligations.StepRunsPlacedWord := by
  intro s w
  have hstep := step_eq_exec _ (withFetchWord_fetches s 8 w)
  rw [withFetchWord_byteAtPc, tableByte_eight] at hstep
  refine ⟨_, hstep, ?_, rfl, rfl, fun h => ?_⟩
  · rw [← tableByte_eight]
    rfl
  · rw [withFetchWord_of_fetches s 8 w h, tableByte_eight]
    exact ⟨pc_succ_toNat s h.2, Memory.read_write_same _ _ _, fun a ha => Memory.read_write_other _ _ _ _ ha⟩

/-- Settles O20: the rejection `step_of_faulted` replaces the response and keeps the four fields of the block. -/
theorem faultedStepIsRejected : Obligations.FaultedStepIsRejected :=
  fun s _ h => ⟨_, step_of_faulted s h, rfl, rfl, rfl, rfl, rfl⟩

/-- Settles O21: `step_of_pastEnd`, which writes the run state and the response. -/
theorem fetchPastEndFaults : Obligations.FetchPastEndFaults := by
  intro s hrun hpc
  exact ⟨_, step_of_pastEnd s hrun ((pc_eq_sixteen_iff s.pc).1 hpc), rfl, rfl, rfl, hpc, rfl, fun _ => rfl⟩

/-- Settles O22: `step_of_unreachablePc` where it stops and `step_answers` everywhere else. -/
theorem stepStopsOnlyAtUnreachablePc : Obligations.StepStopsOnlyAtUnreachablePc := by
  intro s
  by_cases h : s.run = .running ∧ 17 ≤ s.pc.toNat
  · rw [step_of_unreachablePc s h.1 h.2]
    exact ⟨fun f => by simp [h, eq_comm], by simp⟩
  · obtain ⟨t, ht⟩ := step_answers s h
    rw [ht]
    exact ⟨fun f => by simpa using fun hrun hpc => absurd ⟨hrun, hpc⟩ h, by simp⟩

/-- Settles O28, by induction on the steps: the first changes the response alone, and what it leaves is again at a
self-jump. -/
theorem selfJumpLoopsForever : Obligations.SelfJumpLoopsForever := by
  intro n
  induction n with
  | zero => exact fun s _ _ => ⟨s, rfl, rfl, rfl, rfl, rfl⟩
  | succ n ih =>
    intro s h hjmp
    obtain ⟨t, ht, hsame⟩ := ih (respond .ok s) h hjmp
    exact ⟨t, (core_run_succ_of_next s n (step_of_selfJump s h hjmp)).trans ht, hsame⟩

/-- Settles O29: the byte at 0 is 0x00, which is HLT. -/
theorem freshBlockHaltsOnFirstStep : Obligations.FreshBlockHaltsOnFirstStep :=
  ⟨_, step_of_fetches State.reset ⟨rfl, by decide⟩, rfl, rfl, rfl, rfl, Memory.read_nil⟩

end Sys2Proof.Machine
end

section
/-! PROOFS. 60_exceptions.md: the response, the run state and the `pc` of a step, by the checks of R92 and the fetched
byte. -/

namespace Sys2Proof.Machine

section

variable (s t : State)

theorem jumps_decode_iff (b acc : Byte) :
    jumps (decode b) acc ↔ b.toNat / 16 = 7 ∨ (b.toNat / 16 = 8 ∧ acc = 0) := by
  rw [jumps, decode_opcode_toNat]

theorem decode_opcode_eq_ofNat (b : Byte) : (decode b).opcode = BitVec.ofNat 4 (b.toNat / 16) := by
  rw [← decode_opcode_toNat, BitVec.ofNat_toNat, BitVec.setWidth_eq]

/-- A 5-bit `pc` of 0 to 16 has bit 4 set at 16 only (10_state.md R15). -/
theorem getLsbD_four_iff (pc : PcWord) (h : pc.toNat ≤ Config.memCells) : pc.getLsbD 4 = true ↔ pc = 16 := by
  revert pc
  decide

/-- An illegal opcode leaves the fault, and of the fetch the advanced `pc`. -/
theorem fetched_illegal (i : Instr) (h : 8 < i.opcode.toNat) :
    (instrControl i s).apply s =
      respond (.illegalOpcode i.opcode) (setRun (.faulted .illegalOpcode) (afterFetch s)) := by
  rw [← raiseIllegal_next, ← exec_of_illegal _ i h, exec_afterFetch]

theorem fetched_response_of_legal (i : Instr) (h : i.opcode.toNat ≤ 8) :
    ((instrControl i s).apply s).response = .ok := by
  rw [Control.apply_response, instrControl_response, if_pos h]

theorem stepControl_pc_of_not_fetches (hpc : s.pc.toNat ≤ Config.memCells) (h : ¬ s.fetches) :
    ((stepControl s).apply s).pc = s.pc := by
  obtain ⟨run, response, hc⟩ := stepControl_of_not_fetches s hpc h
  rw [hc]
  rfl

end

/-- Settles O24: the response is the control row's, in each case of the checks. -/
theorem stepReportsFirstFailingCheck : Obligations.StepReportsFirstFailingCheck := by
  intro s hpc
  refine ⟨_, step_eq_apply s hpc, ?_⟩
  rw [Control.apply_response]
  cases hrun : s.run with
  | halted => simp [stepControl_of_halted s hrun]
  | faulted r =>
    rw [stepControl_of_faulted s hrun]
    cases r <;> simp
  | running =>
    simp only [reduceCtorEq, if_false]
    rcases Nat.lt_or_eq_of_le hpc with hlt | heq
    · have hne : s.pc ≠ 16 := mt (pc_eq_sixteen_iff s.pc).1 hlt.ne
      rw [stepControl_of_fetches s ⟨hrun, hlt⟩, instrControl_response, decode_opcode_toNat, if_neg hne,
        ← decode_opcode_eq_ofNat]
      split
      · rw [if_neg (by omega)]
      · rw [if_pos (by omega)]
    · rw [stepControl_of_pastEnd s hrun heq, if_pos ((pc_eq_sixteen_iff s.pc).2 heq)]

/-- Settles O25: a rejection keeps the run state, the fault at 16 writes it, and `fetched_run` gives it by the opcode. -/
theorem runStateFollowsTable : Obligations.RunStateFollowsTable := by
  intro s hpc
  refine ⟨_, step_eq_apply s hpc, fun hrun => ?_, fun hrun h16 => ?_, fun hrun h15 => ?_⟩
  · obtain ⟨e, he⟩ := step_of_not_running s hrun
    have happly := (step_eq_apply s hpc).symm.trans he
    rw [Host.Outcome.next.injEq] at happly
    rw [happly, respond_run]
  · rw [stepControl_of_pastEnd s hrun ((pc_eq_sixteen_iff s.pc).1 h16)]
    rfl
  · rw [stepControl_of_fetches s ⟨hrun, Nat.lt_succ_of_le h15⟩, fetched_run s _ hrun, decode_opcode_toNat]

/-- Settles O26: a step that does not fetch holds `pc`, and `fetched_pc_toNat` gives it after a fetch. -/
theorem pcIsIncrementedOrJumpTarget : Obligations.PcIsIncrementedOrJumpTarget := by
  intro s hpc
  refine ⟨_, step_eq_apply s hpc, ?_⟩
  by_cases hf : s.fetches
  · have hlt : s.pc.toNat < 16 := hf.2
    have hnext := fetched_pc_toNat s (decode s.byteAtPc) hf.2
    simp only [decode_data_toNat, jumps_decode_iff] at hnext
    rw [stepControl_of_fetches s hf]
    have hle : ((instrControl (decode s.byteAtPc) s).apply s).pc.toNat ≤ 16 := by
      rw [hnext]
      split <;> omega
    refine ⟨hle, getLsbD_four_iff _ hle, absurd hf, fun _ => ⟨fun hj => ?_, fun hj => ?_, ?_⟩⟩
    · rw [hnext, if_pos hj]
    · rw [hnext, if_neg hj]
    · rw [pc_eq_sixteen_iff, hnext, ← BitVec.toNat_inj (x := s.pc)]
      split
      next hj => exact ⟨fun h => absurd h (Nat.mod_lt _ (by decide)).ne, fun h => absurd hj h.2⟩
      next hj => exact ⟨fun h => ⟨Nat.succ.inj h, hj⟩, fun h => congrArg Nat.succ h.1⟩
  · rw [stepControl_pc_of_not_fetches s hpc hf]
    exact ⟨hpc, getLsbD_four_iff s.pc hpc, fun _ => rfl, fun h => absurd h hf⟩

/-- Settles O27: of the four ways to answer, the two rejections change the response alone, the fault at 16 the run state
too, and a fetched instruction that reports an error is illegal (`fetched_illegal`). -/
theorem failedStepIsPrecise : Obligations.FailedStepIsPrecise := by
  intro s t h herr
  rcases step_cases s t h with ⟨hrun, rfl⟩ | ⟨r, hrun, rfl⟩ | ⟨hrun, hpc, rfl⟩ | ⟨hf, rfl⟩
  · exact ⟨rfl, fun _ => rfl, .inl ⟨rfl, rfl, by simp [hrun]⟩⟩
  · exact ⟨rfl, fun _ => rfl, .inl ⟨rfl, rfl, by simp [hrun]⟩⟩
  · exact ⟨rfl, fun _ => rfl, .inr (.inl ⟨rfl, hrun, (pc_eq_sixteen_iff s.pc).2 hpc, rfl⟩)⟩
  · have hop : 8 < (decode s.byteAtPc).opcode.toNat :=
      Nat.lt_of_not_le (mt (fetched_response_of_legal s _) herr)
    rw [fetched_illegal s _ hop]
    rw [decode_opcode_toNat] at hop
    exact ⟨rfl, fun _ => rfl, .inr (.inr ⟨pc_succ_toNat s hf.2, hf.1, rfl, hop⟩)⟩

end Sys2Proof.Machine
end

section
/-! PROOFS. 20_memory.md section 6: a store is seen by the next fetch. -/

namespace Sys2Proof.Machine

theorem step_of_byteAtPc {s : State} {b : Byte} (h : s.fetches) (hb : s.mem.read s.pc.toNat = b) :
    step s = exec (decode b) { s with pc := s.pc + 1 } :=
  hb ▸ step_eq_exec s h

/-- The two stores as one case: their row writes the memory at the given address, and does not jump. -/
theorem store_row (s : State) {i : Instr} {d ea : Nibble}
    (h : (i = .sta d ∧ ea = d) ∨ (i = .sti d ∧ ea.toNat = (s.mem.read d.toNat).toNat % 16)) :
    (instrControl i s).memWriteAt = some ea ∧ (instrControl i s).runWritten = none ∧ ¬ jumps i s.acc := by
  rcases h with ⟨rfl, rfl⟩ | ⟨rfl, hea⟩
  · exact ⟨rfl, rfl, by simp [Instr.opcode]⟩
  · have hptr : dataField (memRead d s) = ea := BitVec.eq_of_toNat_eq ((dataField_toNat _).trans hea.symm)
    exact ⟨congrArg some hptr, rfl, by simp [Instr.opcode]⟩

/-- Settles O30: after the store the block is Running at the next cell, which holds the accumulator where the store was
to it, and the next step is `step_eq_exec`. -/
theorem storeIsSeenByNextFetch : Obligations.StoreIsSeenByNextFetch := by
  intro s d ea hf hstore
  obtain ⟨hwrite, hkeep, hjump⟩ := store_row s hstore
  have hpc := fetched_pc_toNat s (decode s.byteAtPc) hf.2
  rw [if_neg hjump] at hpc
  have hcell : ((instrControl (decode s.byteAtPc) s).apply s).mem.read ea.toNat = s.acc := by
    rw [Control.apply_mem_of_some s hwrite, Memory.read_write_same]
  have hrun : ((instrControl (decode s.byteAtPc) s).apply s).run = .running := by
    rw [Control.apply_run, hkeep]
    exact hf.1
  refine ⟨_, step_of_fetches s hf, hcell, hpc, fun hea => ?_⟩
  rw [← hpc] at hea
  exact step_of_byteAtPc ⟨hrun, hea ▸ nibble_lt ea⟩ (hea ▸ hcell)

end Sys2Proof.Machine
end

section
/-! PROOFS. 10_state.md: who writes the accumulator (R17), who sets the halted flag (R19), and that the response is read
by no transaction (log 1). -/

namespace Sys2Proof.Machine

section

variable (s t : State)

/-- The host's memory write changes memory alone. -/
theorem writeMemory_keeps_registers (addr value : Int) :
    (writeMemory addr value s).1.pc = s.pc ∧ (writeMemory addr value s).1.acc = s.acc ∧
      (writeMemory addr value s).1.run = s.run := by
  rcases writeMemory_cases s addr value with ⟨-, -, hw⟩ | ⟨-, -, hw⟩ | ⟨-, hw⟩
  · rw [hw]; exact ⟨rfl, rfl, rfl⟩
  · rw [hw]; exact ⟨rfl, rfl, rfl⟩
  · rw [hw]; exact ⟨rfl, rfl, rfl⟩

/-- Only a step writes a register. -/
theorem transact_keeps_registers {op : HostOp} (hop : op ≠ .step) (h : transact op s = .next t) :
    t.pc = s.pc ∧ t.acc = s.acc ∧ t.run = s.run := by
  cases op with
  | step => exact absurd rfl hop
  | writeMemory addr value => cases h; exact writeMemory_keeps_registers s addr value
  | readMemory | getAccumulator | getProgramCounter | isHalted => cases h; exact ⟨rfl, rfl, rfl⟩

/-- A step that changes the accumulator has fetched an instruction whose row writes it. -/
theorem step_changes_acc (h : step s = .next t) (hne : t.acc ≠ s.acc) :
    s.fetches ∧ (instrControl (decode s.byteAtPc) s).accWritten = true := by
  rcases step_cases s t h with ⟨-, rfl⟩ | ⟨r, -, rfl⟩ | ⟨-, -, rfl⟩ | ⟨hf, rfl⟩
  · exact absurd rfl hne
  · exact absurd rfl hne
  · exact absurd rfl hne
  · refine ⟨hf, by_contra fun hw => hne ?_⟩
    rw [Control.apply_acc, if_neg hw]

/-- A step that halts the block has fetched opcode 0. -/
theorem step_halts (h : step s = .next t) (hs : s.run ≠ .halted) (ht : t.run = .halted) :
    s.fetches ∧ s.byteAtPc.toNat / 16 = 0 := by
  rcases step_cases s t h with ⟨hrun, rfl⟩ | ⟨r, -, rfl⟩ | ⟨-, -, rfl⟩ | ⟨hf, rfl⟩
  · exact absurd hrun hs
  · exact absurd ht hs
  · simp at ht
  · refine ⟨hf, by_contra fun hop => ?_⟩
    rw [fetched_run s _ hf.1, decode_opcode_toNat, if_neg hop] at ht
    split at ht <;> cases ht

/-! Replacing the response: a step overwrites it, and the host's memory write carries it along. -/

theorem instrControl_respond (i : Instr) (e : Response) : instrControl i (respond e s) = instrControl i s := by
  cases i with
  | hlt | lda | ldi | sta | sti | add | sub | jmp | jmz => rfl
  | reserved9 | reserved10 | reserved11 | reserved12 | reserved13 | reserved14 | reserved15 => rfl

theorem step_respond (e : Response) : step (respond e s) = step s := by
  cases hrun : s.run with
  | halted => rw [step_of_halted s hrun, step_of_halted (respond e s) hrun]; rfl
  | faulted r => rw [step_of_faulted s hrun, step_of_faulted (respond e s) hrun]; rfl
  | running =>
    rcases lt_trichotomy s.pc.toNat Config.memCells with hpc | hpc | hpc
    · rw [step_of_fetches s ⟨hrun, hpc⟩, step_of_fetches (respond e s) ⟨hrun, hpc⟩, instrControl_respond]; rfl
    · rw [step_of_pastEnd s hrun hpc, step_of_pastEnd (respond e s) hrun hpc]; rfl
    · rw [step_of_unreachablePc s hrun hpc, step_of_unreachablePc (respond e s) hrun hpc]; rfl

theorem writeMemory_respond (addr value : Int) (e : Response) :
    writeMemory addr value (respond e s) =
      (respond e (writeMemory addr value s).1, (writeMemory addr value s).2) := by
  simp only [writeMemory]
  split
  · split <;> rfl
  · rfl

/-- Every transaction gives its own response, so it answers as if no other had been there. -/
theorem transact_respond (op : HostOp) (e : Response) : transact op (respond e s) = transact op s := by
  cases op with
  | step => exact step_respond s e
  | writeMemory addr value => simp only [transact, writeMemory_respond]; rfl
  | readMemory | getAccumulator | getProgramCounter | isHalted => rfl

end

/-- Settles O35: `transact_keeps_registers` leaves the step alone, and `step_changes_acc` gives the row that writes. -/
theorem onlyLoadsAndArithmeticWriteAcc : Obligations.OnlyLoadsAndArithmeticWriteAcc := by
  intro op s t h hne
  obtain rfl : op = .step := by_contra fun hop => hne (transact_keeps_registers s t hop h).2.1
  obtain ⟨hf, hw⟩ := step_changes_acc s t h hne
  rw [instrControl_accWritten, decode_opcode_toNat] at hw
  exact ⟨rfl, hf, hw⟩

/-- Settles O36: a Halted block stays so (`transact_keeps_terminal_run`), no other transaction than a step writes the run
state, and a step that halts has fetched HLT (`step_halts`). -/
theorem haltedFlagIsSetByHltOnly : Obligations.HaltedFlagIsSetByHltOnly := by
  intro op s t h
  refine ⟨halted_eq_true t, fun hs => ?_, fun hs ht => ?_⟩
  · rw [halted_eq_true] at hs ⊢
    obtain ⟨u, hu, hrun⟩ := transact_keeps_terminal_run s op (by simp [hs])
    rw [h, Host.Outcome.next.injEq] at hu
    rw [hu, hrun, hs]
  · rw [halted_eq_false] at hs
    rw [halted_eq_true] at ht
    obtain rfl : op = .step :=
      by_contra fun hop => hs ((transact_keeps_registers s t hop h).2.2.symm.trans ht)
    exact ⟨rfl, step_halts s t h hs ht⟩

/-- Settles O38: by `transact_respond` the two transactions are equal. -/
theorem responseIsNeverRead : Obligations.ResponseIsNeverRead :=
  fun op s r => ⟨fun _ => transact_respond s op r,
    fun t ht => ⟨t, (transact_respond s op r).trans ht, ⟨rfl, rfl, rfl, rfl⟩, rfl⟩⟩

end Sys2Proof.Machine
end

section
/-! PROOFS. 20_memory.md sections 3 and 6: the accesses of a step (R34), and that they are all a step reads and
writes. -/

namespace Sys2Proof.Machine

section

variable (s : State) (i : Instr) (v w : Byte) (a : Nibble) (log : List Access)

/-- The rows of R34 by opcode. -/
theorem execAccesses_eq :
    execAccesses i s =
      if i.opcode.toNat ∈ [1, 5, 6] then [.read i.data]
      else if i.opcode.toNat = 2 then [.read i.data, .read (indirectAddr i.data s)]
      else if i.opcode.toNat = 3 then [.write i.data s.acc]
      else if i.opcode.toNat = 4 then [.read i.data, .write (indirectAddr i.data s) s.acc]
      else [] := by
  cases i <;> simp [execAccesses, Instr.opcode, Instr.data, directAddr]

/-- Before its last access an instruction only reads. -/
theorem execAccesses_reads_before_last : ∀ x ∈ (execAccesses i s).dropLast, x.isWrite = false := by
  cases i <;> simp [execAccesses, Access.isWrite]

theorem stepAccesses_reads_before_last : ∀ x ∈ (stepAccesses s).dropLast, x.isWrite = false := by
  by_cases h : s.fetches
  · rw [stepAccesses_of_fetches s h]
    intro x hx
    cases hlog : execAccesses (decode s.byteAtPc) s with
    | nil => simp [hlog] at hx
    | cons y log =>
      rw [hlog, List.dropLast_cons_cons, ← hlog, List.mem_cons] at hx
      rcases hx with rfl | hx
      · rfl
      · exact execAccesses_reads_before_last s _ x hx
  · rw [stepAccesses_of_not_fetches s h]
    simp

/-- In a list whose accesses before the last are reads, a write is the last. -/
theorem eq_nil_of_write_of_reads_before_last {log l₁ l₂ : List Access} {x : Access}
    (hreads : ∀ y ∈ log.dropLast, y.isWrite = false) (hlog : log = l₁ ++ x :: l₂) (hx : x.isWrite = true) :
    l₂ = [] := by
  cases l₂ with
  | nil => rfl
  | cons y l₂ =>
    have hmem : x ∈ log.dropLast := by simp [hlog]
    exact absurd hx (by simp [hreads x hmem])

theorem stepAccesses_write_last {l₁ l₂ : List Access} {x : Access} (h : stepAccesses s = l₁ ++ x :: l₂)
    (hx : x.isWrite = true) : l₂ = [] :=
  eq_nil_of_write_of_reads_before_last (stepAccesses_reads_before_last s) h hx

theorem execAccesses_reads_le_two : ((execAccesses i s).filter fun x => !x.isWrite).length ≤ 2 := by
  cases i <;> simp [execAccesses, Access.isWrite]

theorem latestWrite_of_not_mem (h : ∀ w, .write a w ∉ log) : latestWrite v log a = v := by
  induction log with
  | nil => rfl
  | cons x log ih =>
    have hlog : ∀ w, .write a w ∉ log := fun w hw => h w (List.mem_cons_of_mem _ hw)
    cases x with
    | read b => exact ih hlog
    | write b w =>
      have hne : b ≠ a := fun hb => h w (by simp [hb])
      rw [latestWrite_write, if_neg hne, ih hlog]

/-- A step's write is its last access, so the cell is left with its value. -/
theorem latestWrite_of_mem_stepAccesses (h : .write a w ∈ stepAccesses s) :
    latestWrite v (stepAccesses s) a = w := by
  obtain ⟨l₁, l₂, hlog⟩ := List.append_of_mem h
  obtain rfl := stepAccesses_write_last s hlog rfl
  rw [hlog, latestWrite_append, latestWrite_write, if_pos rfl, latestWrite_nil]

/-- A step leaves a cell with the value of its write there, or as it was. -/
theorem step_cell_of_stepAccesses {t : State} (h : step s = .next t) :
    (∀ w, .write a w ∈ stepAccesses s → t.mem.read a.toNat = w) ∧
    ((∀ w, .write a w ∉ stepAccesses s) → t.mem.read a.toNat = s.mem.read a.toNat) := by
  rw [step_cell s t a h]
  exact ⟨fun w hw => latestWrite_of_mem_stepAccesses s _ w a hw, fun hw => latestWrite_of_not_mem _ a _ hw⟩

end

section

variable {s₁ s₂ : State}

/-- The control signals and the accesses of an instruction are functions of the accumulator and the cells it reads. -/
theorem instrControl_congr {i : Instr} (hacc : s₁.acc = s₂.acc)
    (hreads : ∀ a : Nibble, .read a ∈ execAccesses i s₁ → memRead a s₁ = memRead a s₂) :
    instrControl i s₁ = instrControl i s₂ ∧ execAccesses i s₁ = execAccesses i s₂ := by
  cases i with
  | lda d | add d | sub d =>
    have hcell := hreads d (by simp [execAccesses, directAddr])
    simp [instrControl, execAccesses, hcell]
  | ldi d =>
    have hptr := hreads d (by simp [execAccesses])
    have hcell := hreads (indirectAddr d s₁) (by simp [execAccesses])
    simpa [instrControl, execAccesses, indirectAddr, hptr] using hcell
  | sta d => simp [instrControl, execAccesses, hacc]
  | sti d =>
    have hptr := hreads d (by simp [execAccesses])
    simp [instrControl, execAccesses, indirectAddr, hptr, hacc]
  | jmz d => simp [instrControl, execAccesses, hacc]
  | hlt | jmp => exact ⟨rfl, rfl⟩
  | reserved9 | reserved10 | reserved11 | reserved12 | reserved13 | reserved14 | reserved15 => exact ⟨rfl, rfl⟩

/-- The registers after a step are functions of its control row and of `pc`, `acc` and `run`. -/
theorem Control.apply_registers_congr (c : Control) (hpc : s₁.pc = s₂.pc) (hacc : s₁.acc = s₂.acc)
    (hrun : s₁.run = s₂.run) :
    (c.apply s₁).pc = (c.apply s₂).pc ∧ (c.apply s₁).acc = (c.apply s₂).acc ∧
      (c.apply s₁).run = (c.apply s₂).run ∧ (c.apply s₁).response = (c.apply s₂).response := by
  simp only [Control.apply_pc, Control.apply_acc, Control.apply_run, Control.apply_response, hpc, hacc, hrun, and_self]

/-- Two states that agree on the registers and on the cells the first's step reads take the same step. -/
theorem step_congr {t₁ : State} (hpc : s₁.pc = s₂.pc) (hacc : s₁.acc = s₂.acc) (hrun : s₁.run = s₂.run)
    (hreads : ∀ a : Nibble, .read a ∈ stepAccesses s₁ → memRead a s₁ = memRead a s₂) (h : step s₁ = .next t₁) :
    ∃ t₂, step s₂ = .next t₂ ∧ stepAccesses s₂ = stepAccesses s₁ ∧
      t₁.pc = t₂.pc ∧ t₁.acc = t₂.acc ∧ t₁.run = t₂.run ∧ t₁.response = t₂.response := by
  by_cases hf : s₁.fetches
  · have hf₂ : s₂.fetches := by rwa [State.fetches, ← hrun, ← hpc]
    rw [stepAccesses_of_fetches s₁ hf] at hreads ⊢
    have hbyte : s₁.byteAtPc = s₂.byteAtPc := by
      have hfetch := hreads (fetchAddr s₁) (by simp)
      rw [memRead, memRead, fetchAddr_toNat s₁ hf.2] at hfetch
      rw [State.byteAtPc, State.byteAtPc, hfetch, hpc]
    obtain ⟨hrow, haccesses⟩ := instrControl_congr hacc fun a ha => hreads a (List.mem_cons_of_mem _ ha)
    rw [step_of_fetches s₁ hf, Host.Outcome.next.injEq] at h
    subst h
    refine ⟨_, step_of_fetches s₂ hf₂, ?_, ?_⟩
    · rw [stepAccesses_of_fetches s₂ hf₂, haccesses, hbyte, fetchAddr, fetchAddr, hpc]
    · rw [hrow, hbyte]
      exact Control.apply_registers_congr _ hpc hacc hrun
  · have hf₂ : ¬ s₂.fetches := by rwa [State.fetches, ← hrun, ← hpc]
    rw [stepAccesses_of_not_fetches s₁ hf, stepAccesses_of_not_fetches s₂ hf₂]
    rcases step_cases s₁ t₁ h with ⟨hr, rfl⟩ | ⟨r, hr, rfl⟩ | ⟨hr, h16, rfl⟩ | ⟨hf', -⟩
    · exact ⟨_, step_of_halted s₂ (hrun ▸ hr), rfl, hpc, hacc, hrun, rfl⟩
    · exact ⟨_, step_of_faulted s₂ (hrun ▸ hr), rfl, hpc, hacc, hrun, rfl⟩
    · exact ⟨_, step_of_pastEnd s₂ (hrun ▸ hr) (hpc ▸ h16), rfl, hpc, hacc, rfl, rfl⟩
    · exact absurd hf' hf

end

/-- Settles O40: the fetch and then `execAccesses_eq`, by the opcode and the data field of the fetched byte. -/
theorem stepAccessesFollowTable : Obligations.StepAccessesFollowTable := by
  intro s
  refine ⟨stepAccesses_of_not_fetches s, fun l₁ x l₂ => stepAccesses_write_last s, ?_, fun h => ?_⟩
  · by_cases h : s.fetches
    · rw [stepAccesses_of_fetches s h]
      exact Nat.succ_le_succ (execAccesses_reads_le_two s _)
    · rw [stepAccesses_of_not_fetches s h]
      simp
  · refine ⟨fetchAddr s, (decode s.byteAtPc).data, indirectAddr (decode s.byteAtPc).data s,
      fetchAddr_toNat s h.2, decode_data_toNat _, indirectAddr_toNat _ s, ?_⟩
    rw [stepAccesses_of_fetches s h, execAccesses_eq]
    simp only [decode_opcode_toNat, apply_ite (List.cons (Access.read (fetchAddr s)))]

/-- Settles O41: the registers and the accesses are `step_congr`, and the accesses account for every cell
(`step_cell_of_stepAccesses`) in both states. -/
theorem stepDependsOnlyOnCellsItReads : Obligations.StepDependsOnlyOnCellsItReads := by
  intro s₁ s₂ t₁ hpc hacc hrun hreads h
  obtain ⟨t₂, h₂, hlog, hregs⟩ := step_congr hpc hacc hrun hreads h
  obtain ⟨hpc', hacc', hrun', hresponse⟩ := hregs
  refine ⟨t₂, h₂, hlog, hpc', hacc', hrun', hresponse, fun a => ?_⟩
  obtain ⟨hwrite₁, hkeep₁⟩ := step_cell_of_stepAccesses s₁ a h
  obtain ⟨hwrite₂, hkeep₂⟩ := step_cell_of_stepAccesses s₂ a h₂
  rw [hlog] at hwrite₂ hkeep₂
  exact ⟨fun w hw => ⟨hwrite₁ w hw, hwrite₂ w hw⟩, fun hw => ⟨hkeep₁ hw, hkeep₂ hw⟩⟩

end Sys2Proof.Machine
end

section
/-! PROOFS. The host's port (10_state.md R24; 20_memory.md R31, R32; 60_exceptions.md R82): the memory operations in
every run state, the queries, and the codes. -/

namespace Sys2Proof.Machine

theorem hostAddr_toNat_eq_toNat (addr : Int) (h : 0 ≤ addr ∧ addr < 16) : (hostAddr addr).toNat = addr.toNat := by
  have := hostAddr_toNat addr h
  omega

theorem transact_writeMemory (s : State) {addr value : Int} {t : State} {e : Response}
    (h : writeMemory addr value s = (t, e)) : transact (.writeMemory addr value) s = .next (respond e t) := by
  rw [transact, h]

/-- The bound of the statements is the bound of the port's check. -/
theorem le_fifteen_iff (addr : Int) : addr ≤ 15 ↔ addr < 16 := by omega

/-- Settles O44: the three answers of the port's checks, which the registers do not depend on. -/
theorem hostWriteChecksAddressThenValue : Obligations.HostWriteChecksAddressThenValue := by
  intro s addr value
  simp only [le_fifteen_iff addr]
  by_cases ha : 0 ≤ addr ∧ addr < 16
  · by_cases hv : 0 ≤ value ∧ value ≤ 255
    · simp only [if_pos ha, if_pos hv, ← hostAddr_toNat_eq_toNat addr ha]
      refine ⟨_, transact_writeMemory s (writeMemory_inRange s addr ha hv), rfl, rfl, rfl, rfl, ?_, fun a hne => ?_⟩
      · rw [respond_mem, memWrite_mem, Memory.read_write_same, hostValue_toNat value hv]
      · exact Memory.read_write_other _ _ _ _ hne
    · simp only [if_pos ha, if_neg hv]
      exact ⟨_, transact_writeMemory s (writeMemory_invalidValue s addr ha hv), rfl, rfl, rfl, rfl, rfl⟩
  · simp only [if_neg ha]
    exact ⟨_, transact_writeMemory s (writeMemory_outOfRange s addr ha), rfl, rfl, rfl, rfl, rfl⟩

/-- Settles O45: a read answers by the address check, and a read or a query replaces the response alone. -/
theorem hostReadsChangeNothing : Obligations.HostReadsChangeNothing := by
  refine ⟨fun s addr => ⟨_, rfl, ⟨rfl, rfl, rfl, rfl⟩, ?_⟩, fun s op hop => ?_, fun s => ⟨rfl, rfl, halted_eq_true s⟩⟩
  · simp only [respond_response, le_fifteen_iff addr]
    by_cases ha : 0 ≤ addr ∧ addr < 16
    · rw [if_pos ha, readMemory_inRange s addr ha, memRead, hostAddr_toNat_eq_toNat addr ha]
    · rw [if_neg ha, readMemory_outOfRange s addr ha]
  · have hquery : transact op s = .next (respond .ok s) := by
      simp only [List.mem_cons, List.not_mem_nil, or_false] at hop
      rcases hop with rfl | rfl | rfl <;> rfl
    exact ⟨_, hquery, ⟨rfl, rfl, rfl, rfl⟩, rfl⟩

/-- Settles O46: `isError` is a code other than 0, and the codes and infos are read off. -/
theorem responseCodesAndInfos : Obligations.ResponseCodesAndInfos := by
  refine ⟨fun r => bne_eq_false_iff_eq, fun _ => ⟨rfl, rfl⟩, rfl, rfl, fun _ => ⟨rfl, rfl⟩, fun _ => ⟨rfl, rfl⟩,
    fun _ => ⟨rfl, rfl⟩, rfl, rfl, rfl, rfl, rfl, rfl⟩

end Sys2Proof.Machine
end

section
/-! PROOFS. 60_exceptions.md R97 and 30_encoding.md R58, R59: what a load leaves in the cells, and so where an assembled
program stands. -/

namespace Sys2Proof.Machine

/-- The load tokens of a list of values. -/
abbrev valueTokens (values : List Nat) : List (Option Int) := values.map fun v : Nat => some (v : Int)

/-- What cell `j`, holding `old`, holds as a number after the load of values from address `k` on. -/
def loadedCell (k : Nat) (values : List Nat) (j old : Nat) : Nat :=
  if k ≤ j ∧ j < 16 then values[j - k]?.getD old else old

/-- How the load of a number of values from address `k` on ends: token 16 is the first that has no cell. -/
def valuesLoadEnd (k length : Nat) : LoadEnd :=
  if k + length ≤ 16 then .loaded else .writeError 16 (.outOfRange 16)

section

variable (k v j old : Nat) (values : List Nat) (s : State)

theorem loadedCell_nil : loadedCell k [] j old = old := by
  simp [loadedCell]

theorem loadedCell_sixteen : loadedCell 16 values j old = old :=
  if_neg (by omega)

/-- The first value goes to cell `k`, and the rest from the next cell on. -/
theorem loadedCell_cons (hk : k < 16) :
    loadedCell k (v :: values) j old = loadedCell (k + 1) values j (if k = j then v else old) := by
  unfold loadedCell
  rcases lt_trichotomy k j with hlt | rfl | hgt
  · have hindex : j - k = j - (k + 1) + 1 := by omega
    have hle : k ≤ j := hlt.le
    simp [hindex, hlt.ne, Nat.succ_le_of_lt hlt, hle]
  · simp [hk]
  · simp [hgt.ne', Nat.not_le_of_lt hgt, Nat.not_le_of_lt (Nat.lt_succ_of_lt hgt)]

theorem loadFrom_cons_of_ok {value : Int} {rest : List (Option Int)} {t : State}
    (h : writeMemory k value s = (t, .ok)) :
    loadFrom k (some value :: rest) s = loadFrom (k + 1) rest (respond .ok t) := by
  simp [loadFrom, h, Response.isError, Response.code]

theorem loadFrom_cons_of_error {value : Int} {rest : List (Option Int)} {t : State} {e : Response}
    (h : writeMemory k value s = (t, e)) (he : e.isError = true) :
    loadFrom k (some value :: rest) s = (respond e t, .writeError k e) := by
  simp [loadFrom, h, he]

/-- A host write as numbers: the cell of the address takes the value. -/
theorem read_hostWrite_toNat (hk : k < 16) (hv : v ≤ 255) :
    ((memWrite (hostAddr k) (hostValue v) s).mem.read j).toNat = if k = j then v else (s.mem.read j).toNat := by
  have haddr : (hostAddr k).toNat = k := by
    have := hostAddr_toNat k (by omega)
    omega
  have hvalue : (hostValue v).toNat = v := by
    have := hostValue_toNat v (by omega)
    omega
  rw [memWrite_mem, haddr, Memory.read_write]
  split
  · exact hvalue
  · rfl

/-- The load of valid values from address `k` on, by induction on the values: each is written to its cell, until one has
none. -/
theorem loadFrom_values (hk : k ≤ 16) (hv : ∀ v ∈ values, v ≤ 255) :
    ∃ t, loadFrom k (valueTokens values) s = (t, valuesLoadEnd k values.length) ∧
      t.pc = s.pc ∧ t.acc = s.acc ∧ t.run = s.run ∧
      ∀ j, (t.mem.read j).toNat = loadedCell k values j (s.mem.read j).toNat := by
  induction values generalizing k s with
  | nil => exact ⟨s, by rw [valuesLoadEnd, List.length_nil, if_pos (show k + 0 ≤ 16 from hk)]; rfl, rfl, rfl, rfl,
      fun j => (loadedCell_nil k j _).symm⟩
  | cons v values ih =>
    obtain ⟨hv, hvalues⟩ := List.forall_mem_cons.1 hv
    rcases Nat.lt_or_eq_of_le hk with hlt | rfl
    · have hwrite : writeMemory k v s = (memWrite (hostAddr k) (hostValue v) s, .ok) :=
        writeMemory_inRange s k (by omega) (by omega)
      obtain ⟨t, ht, hpc, hacc, hrun, hcells⟩ :=
        ih (k + 1) (respond .ok (memWrite (hostAddr k) (hostValue v) s)) hlt hvalues
      refine ⟨t, ?_, hpc, hacc, hrun, fun j => ?_⟩
      · rw [valueTokens, List.map_cons, loadFrom_cons_of_ok k s hwrite, ht, valuesLoadEnd, valuesLoadEnd,
          List.length_cons, Nat.add_right_comm, Nat.add_assoc]
      · rw [hcells, respond_mem, read_hostWrite_toNat k v j s hlt hv, ← loadedCell_cons k v j _ values hlt]
    · have hwrite : writeMemory (16 : Nat) v s = (s, .outOfRange 16) := writeMemory_outOfRange s _ (by omega)
      refine ⟨respond (.outOfRange 16) s, ?_, rfl, rfl, rfl, fun j => (loadedCell_sixteen j _ _).symm⟩
      rw [valueTokens, List.map_cons, loadFrom_cons_of_error 16 s hwrite rfl, valuesLoadEnd, if_neg (by simp)]

theorem loadedCell_zero_of_some (hj : j < 16) (h : values[j]? = some v) : loadedCell 0 values j old = v := by
  simp [loadedCell, hj, h]

theorem loadedCell_zero_of_none (h : 16 ≤ j ∨ values[j]? = none) : loadedCell 0 values j old = old := by
  unfold loadedCell
  rcases h with h | h
  · exact if_neg (by omega)
  · simp [h]

end

/-- Settles O47: `loadFrom_values` from address 0. -/
theorem loadFillsCellsInOrder : Obligations.LoadFillsCellsInOrder := by
  intro values s hv
  obtain ⟨t, ht, hpc, hacc, hrun, hcells⟩ := loadFrom_values 0 values s (Nat.zero_le _) hv
  rw [valuesLoadEnd, Nat.zero_add] at ht
  refine ⟨t, hpc, hacc, hrun, fun k hk v hval => ?_, fun k hk => ?_, fun hlen => ?_, fun hlen => ?_⟩
  · rw [hcells, loadedCell_zero_of_some v k _ values hk hval]
  · exact BitVec.eq_of_toNat_eq (by rw [hcells, loadedCell_zero_of_none k _ values hk])
  · rwa [if_pos hlen] at ht
  · rwa [if_neg (by omega)] at ht

/-- The image of a program as the values it loads. -/
theorem imageTokens_eq_valueTokens (items : List AsmItem) :
    imageTokens items = valueTokens (items.map fun i => i.toByte.toNat) := by
  simp [imageTokens, valueTokens]

theorem Mnemonic.instr_wellFormed (m : Mnemonic) (d : Nibble) : (m.instr d).wellFormed = true := by
  cases m <;> rfl

/-- Settles O49: by `loadFillsCellsInOrder` cell `k` holds the byte of item `k`, which for an instruction decodes to it
(`decode_encode`). -/
theorem assembledItemsStandInOrder : Obligations.AssembledItemsStandInOrder := by
  intro items hlen hwf
  obtain ⟨t, -, -, -, hput, hkeep, hload, -⟩ :=
    loadFillsCellsInOrder (items.map fun i => i.toByte.toNat) State.reset
      (by simpa using fun i _ => Nat.le_of_lt_succ i.toByte.isLt)
  have hbyte : ∀ (k : Nat) (i : AsmItem), items[k]? = some i → t.mem.read k = i.toByte := by
    intro k i hi
    have hk : k < items.length := (List.getElem?_eq_some_iff.1 hi).1
    exact BitVec.eq_of_toNat_eq (hput k (by omega) _ (by simp [hi]))
  refine ⟨t, ?_, fun k => ⟨fun m n hi => ?_, fun v hi => ?_, fun hi => ?_⟩⟩
  · rw [imageTokens_eq_valueTokens]
    exact hload (by simpa using hlen)
  · have hn : n ≤ 15 := by simpa [AsmItem.wellFormed] using hwf _ (List.mem_of_getElem? hi)
    refine ⟨BitVec.ofNat 4 n, ?_, ?_, m.instr_wellFormed _⟩
    · rw [BitVec.toNat_ofNat]
      omega
    · rw [hbyte k _ hi, AsmItem.toByte, decode_encode]
  · have hv : v ≤ 255 := by simpa [AsmItem.wellFormed] using hwf _ (List.mem_of_getElem? hi)
    rw [hbyte k _ hi, AsmItem.toByte, BitVec.toNat_ofNat]
    omega
  · rw [hkeep k (.inr (by simp [hi]))]
    exact Memory.read_nil k

end Sys2Proof.Machine
end

section
/-! PROOFS. 60_exceptions.md R98: the host's loop. What a view of it says is stated once (`LoopAccount`), and the reports
and the bounds are read from that. -/

namespace Sys2Proof.Machine

section

variable {limit : CycleLimit} {passes n k l : Nat} {s t : State}

/-! The pass that ends a run, by its report. -/

theorem loopPass_ended_halted (h : loopPass limit n s = .ended (.halted k) t) : t.halted = true ∧ k = n := by
  rcases loopPass_ended _ _ _ _ _ h with ⟨hh, hr, rfl⟩ | ⟨-, -, hr, -⟩ | ⟨-, -, -, hr⟩ | ⟨-, hr, -⟩
  · exact ⟨hh, Report.halted.inj hr⟩
  all_goals cases hr

theorem loopPass_ended_cycleLimit (h : loopPass limit n s = .ended (.cycleLimit k) t) :
    t.halted = false ∧ limitReached limit n = true ∧ k = n := by
  rcases loopPass_ended _ _ _ _ _ h with ⟨-, hr, -⟩ | ⟨hh, hl, hr, rfl⟩ | ⟨-, -, -, hr⟩ | ⟨-, hr, -⟩
  · cases hr
  · exact ⟨hh, hl, Report.cycleLimit.inj hr⟩
  all_goals cases hr

theorem loopPass_ended_interrupted {e : Response} (h : loopPass limit n s = .ended (.interrupted k e) t) :
    s.halted = false ∧ step s = .next t ∧ e.isError = true ∧ t.response = e ∧ k = n := by
  rcases loopPass_ended _ _ _ _ _ h with ⟨-, hr, -⟩ | ⟨-, -, hr, -⟩ | ⟨hh, hs, he, hr⟩ | ⟨-, hr, -⟩
  · cases hr
  · cases hr
  · cases hr
    exact ⟨hh, hs, he, rfl, rfl⟩
  · cases hr

theorem loopPass_ended_stuck (h : loopPass limit n s = .ended (.stuck k) t) : ∀ u, step s ≠ .next u := by
  rcases loopPass_ended _ _ _ _ _ h with ⟨-, hr, -⟩ | ⟨-, -, hr, -⟩ | ⟨-, -, -, hr⟩ | ⟨hs, -, -⟩
  · cases hr
  · cases hr
  · cases hr
  · exact hs

/-- A step of a block that is not halted reports an error only as a fault or of a faulted block. -/
theorem step_error_faulted (h : step s = .next t) (hs : s.run ≠ .halted) (he : t.response.isError = true) :
    ¬ t.unfaulted := by
  rcases step_cases s t h with ⟨hrun, -⟩ | ⟨r, hrun, rfl⟩ | ⟨-, -, rfl⟩ | ⟨-, rfl⟩
  · exact absurd hrun hs
  · exact fun hun => hun r hrun
  · exact fun hun => hun .outOfRange rfl
  · by_cases hop : (decode s.byteAtPc).opcode.toNat ≤ 8
    · rw [fetched_response_of_legal s _ hop] at he
      cases he
    · rw [fetched_illegal s _ (Nat.lt_of_not_le hop)]
      exact fun hun => hun .illegalOpcode rfl

/-- Below the limit a pass does what it does without one. -/
theorem loopPass_of_lt (s : State) (h : n < l) : loopPass (some l) n s = loopPass none n s := by
  have hl : limitReached (some l) n = limitReached none n := decide_eq_false (Nat.not_le_of_lt h)
  simp only [loopPass, hl]

/-- What a view of the loop from count `n` and state `s` says of its passes: they stay within the limit, and the run goes
on after all of them, or the next pass, from a state `u` in the invariant where `s` was, ends it with the view's
report. -/
structure LoopAccount (limit : CycleLimit) (passes n : Nat) (s : State) (v : RunView) (u : State) : Prop where
  trace_le : v.trace.length ≤ passes
  count_le : ∀ l, limit = some l → n + v.trace.length ≤ max n l
  inv : s.Inv → u.Inv
  outcome : (v.report = none ∧ v.trace.length = passes) ∨
    ∃ r, v.report = some r ∧ loopPass limit (n + v.trace.length) u = .ended r v.state

theorem loopAccount_ended {r : Report} (h : loopPass limit n s = .ended r t) :
    LoopAccount limit (passes + 1) n s ⟨some r, t, []⟩ s where
  trace_le := Nat.zero_le _
  count_le l _ := le_max_left n l
  inv hinv := hinv
  outcome := .inr ⟨r, rfl, h⟩

/-- An executed pass before a view: one more line of the trace, below the limit. -/
theorem loopAccount_executed {v : RunView} {u : State} (h : loopPass limit n s = .executed t)
    (hv : LoopAccount limit passes (n + 1) t v u) :
    LoopAccount limit (passes + 1) n s { v with trace := snapshot t :: v.trace } u := by
  obtain ⟨-, hlimit, hstep, -⟩ := (loopPass_executed limit n s t).1 h
  have hcount : n + 1 + v.trace.length = n + (v.trace.length + 1) := by omega
  refine ⟨Nat.succ_le_succ hv.trace_le, ?_, fun hinv => hv.inv (step_keeps_inv s hinv hstep), ?_⟩
  · rintro l rfl
    have hlt : ¬ l ≤ n := of_decide_eq_false hlimit
    have := hv.count_le l rfl
    simp only [List.length_cons]
    omega
  · rcases hv.outcome with ⟨hr, hlen⟩ | ⟨r, hr, hend⟩
    · exact .inl ⟨hr, congrArg Nat.succ hlen⟩
    · exact .inr ⟨r, hr, hcount ▸ hend⟩

theorem hostLoop_account (limit : CycleLimit) (passes n : Nat) (s : State) :
    ∃ u, LoopAccount limit passes n s (hostLoop limit passes n s) u := by
  induction passes generalizing n s with
  | zero => exact ⟨s, le_rfl, fun l _ => le_max_left n l, id, .inl ⟨rfl, rfl⟩⟩
  | succ passes ih =>
    cases h : loopPass limit n s with
    | ended r t =>
      rw [hostLoop_ended _ _ _ _ _ _ h]
      exact ⟨s, loopAccount_ended h⟩
    | executed t =>
      rw [hostLoop_executed _ _ _ _ _ h]
      obtain ⟨u, hu⟩ := ih (n + 1) t
      exact ⟨u, loopAccount_executed h hu⟩

theorem LoopAccount.ended {v : RunView} {u : State} {r : Report} (h : LoopAccount limit passes n s v u)
    (hr : v.report = some r) : loopPass limit (n + v.trace.length) u = .ended r v.state := by
  rcases h.outcome with ⟨hnone, -⟩ | ⟨r', hr', hend⟩
  · rw [hnone] at hr
    cases hr
  · rw [hr', Option.some.injEq] at hr
    exact hr ▸ hend

end

/-- Settles O48: each report is that of the pass that ended the run (`LoopAccount.ended`), at the count of the executed
steps. -/
theorem driverLoopReportsTruly : Obligations.DriverLoopReportsTruly := by
  rintro limit passes n s v rfl
  obtain ⟨u, hu⟩ := hostLoop_account limit passes n s
  refine ⟨hu.trace_le, fun hr => ?_, fun k hk => ?_, fun k hk => ?_, fun k r hk => ?_, fun l hl hn => ?_,
    fun hinv k hk => ?_⟩
  · rcases hu.outcome with ⟨-, hlen⟩ | ⟨r, hr', -⟩
    · exact hlen
    · rw [hr] at hr'
      cases hr'
  · exact loopPass_ended_halted (hu.ended hk)
  · obtain ⟨hh, hl, rfl⟩ := loopPass_ended_cycleLimit (hu.ended hk)
    cases limit with
    | none => simp at hl
    | some l =>
      have hle := (limitReached_some _ l).1 hl
      have hcount := hu.count_le l rfl
      exact ⟨hh, rfl, l, rfl, hle, fun hn => by omega⟩
  · obtain ⟨hh, hstep, he, hresponse, hcount⟩ := loopPass_ended_interrupted (hu.ended hk)
    exact ⟨hresponse, he, step_error_faulted hstep ((halted_eq_false u).1 hh) (hresponse ▸ he), hcount⟩
  · have hcount := hu.count_le l hl
    omega
  · exact loopPass_ended_stuck (hu.ended hk) _ (step_eq_apply u (hu.inv hinv).2.1)

end Sys2Proof.Machine
end

section
/-! PROOFS. Limited and unlimited runs (60_exceptions.md R98, R100; 93_implementation_defined.md I11). -/

namespace Sys2Proof.Machine

section

variable (limit : CycleLimit) (passes more n l : Nat) (s : State)

/-- An ended run is not changed by further passes. -/
theorem hostLoop_add_of_ended (h : (hostLoop limit passes n s).report ≠ none) :
    hostLoop limit (passes + more) n s = hostLoop limit passes n s := by
  induction passes generalizing n s with
  | zero => exact absurd rfl h
  | succ passes ih =>
    rw [Nat.add_right_comm]
    cases hp : loopPass limit n s with
    | ended r t => rw [hostLoop_ended _ _ _ _ _ _ hp, hostLoop_ended _ _ _ _ _ _ hp]
    | executed t =>
      rw [hostLoop_executed _ _ _ _ _ hp] at h
      rw [hostLoop_executed _ _ _ _ _ hp, hostLoop_executed _ _ _ _ _ hp, ih (n + 1) t h]

/-- More passes than the limit leaves steps: a run still going on would have executed one step too many. -/
theorem hostLoop_limited_ends : (hostLoop (some l) (l - n + 1) n s).report ≠ none := by
  intro hr
  obtain ⟨u, hu⟩ := hostLoop_account (some l) (l - n + 1) n s
  rcases hu.outcome with ⟨-, hlen⟩ | ⟨r, hr', -⟩
  · have hcount := hu.count_le l rfl
    omega
  · rw [hr] at hr'
    cases hr'

theorem hostLoop_none_ne_cycleLimit (k : Nat) : (hostLoop none passes n s).report ≠ some (.cycleLimit k) := by
  intro hr
  obtain ⟨u, hu⟩ := hostLoop_account none passes n s
  obtain ⟨-, hl, -⟩ := loopPass_ended_cycleLimit (hu.ended hr)
  cases hl

theorem hostLoop_eq_none_of_le (h : n + passes ≤ l) :
    hostLoop (some l) passes n s = hostLoop none passes n s := by
  induction passes generalizing n s with
  | zero => rfl
  | succ passes ih =>
    have hpass := loopPass_of_lt s (show n < l by omega)
    cases hp : loopPass none n s with
    | ended r t => rw [hostLoop_ended _ _ _ _ _ _ hp, hostLoop_ended _ _ _ _ _ _ (hpass.trans hp)]
    | executed t =>
      rw [hostLoop_executed _ _ _ _ _ hp, hostLoop_executed _ _ _ _ _ (hpass.trans hp), ih (n + 1) t (by omega)]

theorem loopPass_of_selfJump (h : s.fetches) (hjmp : decode s.byteAtPc = .jmp (BitVec.ofNat 4 s.pc.toNat)) :
    loopPass none n s = .executed (respond .ok s) :=
  (loopPass_executed _ _ _ _).2 ⟨(halted_eq_false s).2 (by simp [h.1]), rfl, step_of_selfJump s h hjmp, rfl⟩

/-- After its first pass a self-jump is a fixed state of the unlimited loop. -/
theorem hostLoop_none_of_selfJump (h : s.fetches)
    (hjmp : decode s.byteAtPc = .jmp (BitVec.ofNat 4 s.pc.toNat)) : (hostLoop none passes n s).report = none := by
  cases passes with
  | zero => rfl
  | succ passes =>
    rw [hostLoop_executed _ _ _ _ _ (loopPass_of_selfJump n s h hjmp)]
    exact hostLoop_none_of_fixed passes (n + 1) (respond .ok s) fun m => loopPass_of_selfJump m (respond .ok s) h hjmp

end

section

variable {tokens : List (Option Int)} {s : State}

/-! The whole run: a load that fails ends it at once, and a load that succeeds leaves the loop. -/

theorem hostRun_of_loaded (limit : CycleLimit) (passes : Nat) (h : hostLoad tokens State.reset = (s, .loaded)) :
    hostRun tokens passes limit =
      { hostLoop limit passes 0 s with trace := snapshot s :: (hostLoop limit passes 0 s).trace } := by
  simp only [hostRun, h]

theorem hostRun_of_loadFailure (limit : CycleLimit) (passes : Nat) {e : LoadEnd}
    (h : hostLoad tokens State.reset = (s, e)) (he : e ≠ .loaded) :
    hostRun tokens passes limit = ⟨some (.loadFailed e), s, []⟩ := by
  simp only [hostRun, h]

theorem hostRun_add_of_ended {limit : CycleLimit} {passes : Nat} (more : Nat)
    (h : (hostRun tokens passes limit).report ≠ none) :
    hostRun tokens (passes + more) limit = hostRun tokens passes limit := by
  obtain ⟨s, e, hload⟩ : ∃ s e, hostLoad tokens State.reset = (s, e) := ⟨_, _, rfl⟩
  by_cases he : e = .loaded
  · subst he
    rw [hostRun_of_loaded _ _ hload] at h
    rw [hostRun_of_loaded _ _ hload, hostRun_of_loaded _ _ hload, hostLoop_add_of_ended _ _ _ _ _ h]
  · rw [hostRun_of_loadFailure _ _ hload he, hostRun_of_loadFailure _ _ hload he]

/-- Two ended views of one run are the view of all their passes together. -/
theorem hostRun_eq_of_ended {limit : CycleLimit} {p q : Nat} (hp : (hostRun tokens p limit).report ≠ none)
    (hq : (hostRun tokens q limit).report ≠ none) : hostRun tokens q limit = hostRun tokens p limit := by
  rw [← hostRun_add_of_ended p hq, Nat.add_comm, hostRun_add_of_ended q hp]

theorem hostRun_limited_ends (tokens : List (Option Int)) (l : Nat) :
    (hostRun tokens (l + 1) (some l)).report ≠ none := by
  obtain ⟨s, e, hload⟩ : ∃ s e, hostLoad tokens State.reset = (s, e) := ⟨_, _, rfl⟩
  by_cases he : e = .loaded
  · subst he
    rw [hostRun_of_loaded _ _ hload]
    exact hostLoop_limited_ends 0 l s
  · rw [hostRun_of_loadFailure _ _ hload he]
    exact Option.some_ne_none _

/-- A run never ends, for want of a limit, or ends in exactly one view. -/
theorem run_never_ends_or_ends_once (tokens : List (Option Int)) (limit : CycleLimit) :
    (RunNeverEnds tokens limit ∧ limit = none ∧ ∀ v, ¬ RunEndsIn tokens limit v) ∨
    (¬ RunNeverEnds tokens limit ∧ ∃ v, RunEndsIn tokens limit v ∧ ∀ w, RunEndsIn tokens limit w → w = v) := by
  by_cases h : RunNeverEnds tokens limit
  · refine .inl ⟨h, ?_, ?_⟩
    · cases limit with
      | none => rfl
      | some l => exact absurd (h (l + 1)) (hostRun_limited_ends tokens l)
    · rintro v ⟨hv, passes, rfl⟩
      exact Option.isSome_iff_ne_none.1 hv (h passes)
  · obtain ⟨passes, hp⟩ := not_forall.1 h
    refine .inr ⟨h, _, ⟨Option.isSome_iff_ne_none.2 hp, passes, rfl⟩, ?_⟩
    rintro w ⟨hw, q, rfl⟩
    exact hostRun_eq_of_ended hp (Option.isSome_iff_ne_none.1 hw)

/-- The loaded image 0x70 (95_test_vectors.md E1) is a JMP to its own address. -/
theorem selfJumpImage_never_ends : RunNeverEnds [some 0x70] none := by
  intro passes
  have hload : hostLoad [some 0x70] State.reset = ({ State.reset with mem := [(0, 0x70)] }, .loaded) := by decide
  rw [hostRun_of_loaded _ _ hload]
  exact hostLoop_none_of_selfJump passes 0 _ (by decide) (by decide)

end

/-- Settles O50: the clauses in order; the last two are the self-jump in the loop and as an image. -/
theorem limitedRunsEndAndUnlimitedRunsMayNot : Obligations.LimitedRunsEndAndUnlimitedRunsMayNot :=
  ⟨hostLoop_add_of_ended, fun l n s => hostLoop_limited_ends n l s,
    fun passes n k s => hostLoop_none_ne_cycleLimit passes n s k,
    fun l passes n s => hostLoop_eq_none_of_le passes n l s,
    run_never_ends_or_ends_once, hostLoop_none_of_selfJump, selfJumpImage_never_ends⟩

end Sys2Proof.Machine
end
